-- ==== Sys2Proof/Word.lean ====
section
/-! DEFINITION. The word types of CHRXC: a byte (00_scope R10), a host address (20_memory R70) and
the 16-bit merge word of Stage C (43 R210). -/

namespace Sys2Proof

/-- A byte: every host transaction, register and buffer element is one (R70, R79). -/
abbrev Byte := BitVec 8

/-- A host-port address (R70: "one address space of 2^16 byte addresses"). -/
abbrev Addr := BitVec 16

/-- The 16-bit result of `merge_bits` (R210). -/
abbrev MergeWord := BitVec 16

end Sys2Proof
end

