-- ==== Sys2Proof/Syntax.lean ====
section
/-! DEFINITION. The command set CHRXC-1 (30_encoding R120), the names of the five frame buffers
(10_state R31), and the host-script notation (30_encoding R125, R126). -/

namespace Sys2Proof

/-- The five commands of R120, one constructor per row of the opcode table. No command has an
operand (R122, R123). -/
inductive Instr where
  /-- Stage A, row reversal, IN to BA (R172). -/
  | runA
  /-- Stage B, tile reordering, BA to BB (R192). -/
  | runB
  /-- Stage C, bitplane merging, BB to BC (R214). -/
  | runC
  /-- Stage D, pixel-depth decompression, BC to OUT (R242). -/
  | runD
  /-- Stages A, B, C, D in order, IN to OUT (R260). -/
  | runAll
  deriving DecidableEq, Repr

/-- The five byte-addressed buffers of R31: separate storage that never aliases. -/
inductive Buf where
  /-- IN, the CHR frame. -/
  | inp
  /-- BA, the row-reversed frame. -/
  | ba
  /-- BB, the ordered frame. -/
  | bb
  /-- BC, the merged raster, 2 bits per pixel. -/
  | bc
  /-- OUT, the raster at 4 bits per pixel. -/
  | out
  deriving DecidableEq, Repr

/-- A host-side 8-bit temporary (R125), named by a number. -/
abbrev Temp := Nat

/-- A label of a host script (R125). WAITDONE and WAITIDLE expand with a fresh label (R126): `fresh k` is
the one made for the statement at source position `k`, which no well-formed source script names. -/
inductive Label where
  /-- A label the script's writer names. -/
  | named (k : Nat)
  /-- The fresh label of the pseudo-statement at source position `k`. -/
  | fresh (k : Nat)
  deriving DecidableEq, Repr

/-- The host-script statements of R125. -/
inductive Stmt where
  /-- `W addr, v`: one write transaction. -/
  | write (addr : Addr) (v : Byte)
  /-- `R addr -> t`: one read transaction into a temporary. -/
  | read (addr : Addr) (t : Temp)
  /-- `label:` names the next statement. -/
  | label (l : Label)
  /-- `JZ t, mask, label`. -/
  | jz (t : Temp) (mask : Byte) (l : Label)
  /-- `JNZ t, mask, label`. -/
  | jnz (t : Temp) (mask : Byte) (l : Label)
  /-- `HALT`: end of the script. -/
  | halt
  deriving DecidableEq, Repr

/-- The statements a script's writer may use: those of R125 and the pseudo-statements of R126. -/
inductive SrcStmt where
  /-- A statement of R125. -/
  | plain (st : Stmt)
  /-- `CMD name`: writes the command's code to CMD. -/
  | cmd (c : Instr)
  /-- `WAITDONE`: polls STATUS until DONE = 1. -/
  | waitDone
  /-- `WAITIDLE`: polls STATUS until BUSY = 0. -/
  | waitIdle
  /-- `CLEAR`: clears DONE, ERR and ERRCODE. -/
  | clear
  /-- `FILL X+i, count, v`. -/
  | fill (X : Buf) (i count : Nat) (v : Byte)
  /-- `LOAD X+i, v0 v1 … vk`. -/
  | load (X : Buf) (i : Nat) (vs : List Byte)
  deriving DecidableEq, Repr

end Sys2Proof
end

