-- ==== Sys2Proof/Config.lean ====
section
/-! DEFINITION. What is fixed for the machine: the geometry of 00_scope R6 and R7, the port map of
20_memory R71, the hard-wired GEOM register (10_state R38), the two OPEN parameters of R8 and R82,
and the free values, which are constants with no body. -/

namespace Sys2Proof.Config

/-- Tile columns of one pattern table, fixed at 16 (R6). -/
def n : Nat := 16
/-- `L`, frame length in bytes (R7). -/
def L : Nat := 32 * n ^ 2
/-- `H`, bytes in one half, that is one pattern table (R7). -/
def H : Nat := L / 2
/-- `Q`, bytes in one layer region (R7). -/
def Q : Nat := L / 4
/-- `BPR_A`, Stage A's band length (R7, R170). -/
def bprA : Nat := 16 * n
/-- `NB`, Stage A's band count (R7, R170). -/
def NB : Nat := L / bprA
/-- `BPR_C`, Stage C's source bytes per tile row in one layer region (R7; conflict C3). -/
def bprC : Nat := 8 * n
/-- `NT`, tiles in the frame (R7). -/
def NT : Nat := L / 16
/-- `W`, image width in pixels (R7). -/
def W : Nat := 8 * n
/-- `HT`, image height in pixels (R7). -/
def HT : Nat := 16 * n
/-- `SL2`, bytes per scanline of the 2bpp raster (R7). -/
def SL2 : Nat := W / 4
/-- `SL4`, bytes per scanline of the 4bpp raster (R7). -/
def SL4 : Nat := W / 2
/-- `LOUT`, output length in bytes (R7). -/
def LOUT : Nat := 2 * L

/-- GEOM.COLS, hard-wired to `n` = 0x10 (R38). -/
def geom : Byte := 0x10

/-- Length of a buffer in bytes (R31). -/
def bufLen : Buf → Nat
  | .inp => L
  | .ba => L
  | .bb => L
  | .bc => L
  | .out => LOUT

/-- Host address of a buffer's first byte (R71). -/
def bufBase : Buf → Nat
  | .inp => 0x0000
  | .ba => 0x2000
  | .bb => 0x4000
  | .bc => 0x6000
  | .out => 0x8000

/-- FREE VALUE (R33): what byte `i` of a buffer holds at power-on, until it is overwritten.
Log entry 1; safe. -/
opaque powerOnByte (X : Buf) (i : Nat) : Byte

/-- FREE VALUE (R321): what byte `i` of destination buffer `X` holds after the `k`-th reset that
interrupted a command, until it is overwritten. Log entry 2; safe. -/
opaque interruptedByte (k : Nat) (X : Buf) (i : Nat) : Byte

/-- FREE VALUE (R125 is silent): what a host temporary holds before anything is read into it.
Log entry 8; safe. -/
opaque unsetTemp (t : Temp) : Byte

/-- OPEN parameter `T_CMD(c)` (R8): clock cycles from acceptance to completion, finite. No rule
reads it (R328), so nothing in the model does. Log entry 5; safe. -/
opaque tCmd (c : Instr) : Nat

/-- OPEN parameter `HOST_BASE` (R82): where the host maps the port's 64 KiB window. No rule of the
block reads it, so nothing in the model does. Log entry 5; safe. -/
opaque hostBase : Nat

end Sys2Proof.Config
end

