-- ==== Sys2Proof/Machine/State.lean ====
section
/-! DEFINITION. The machine's state as plain data (10_state R30 to R47): the block's sequencer, flags,
error code and five buffers, the host agent that runs a script (R30, R125), and the turns that say
which agent moves next; the state after reset (R47); why a step can stop. -/

namespace Sys2Proof.Machine

/-- The sequencer ENG of R40. -/
inductive Engine where
  /-- No command is running. -/
  | idle
  /-- The accepted command `c` is running. -/
  | running (c : Instr)
  deriving DecidableEq, Repr

/-- The values of ERRCODE.CODE (R37, R281). -/
inductive ErrCode where
  /-- 0: no error since reset or the last clear. -/
  | noError
  /-- 1: a CMD write, while idle, of a value that is no command. -/
  | illegalCmd
  /-- 2: a CMD write while busy. -/
  | cmdWhileBusy
  /-- 3: a host access to a buffer address while busy. -/
  | accessWhileBusy
  deriving DecidableEq, Repr

/-- Who moves next in the one total order of R84: the host's next statement, the engine's completion
step, or the reset input (R320). -/
inductive Turn where
  /-- The host agent executes its next statement. -/
  | host
  /-- The engine takes its completion step, if a command is running. -/
  | engine
  /-- The reset input is asserted. -/
  | reset
  deriving DecidableEq, Repr

/-- Bytes by index, strictly rising: an index that is not listed has not been written. -/
abbrev Cells := List Host.Cell

/-- The five buffers of R31, each separate storage keyed by the buffer's own index. A byte nothing
has written since power-on is not listed. -/
structure Memory where
  inp : Cells
  ba : Cells
  bb : Cells
  bc : Cells
  out : Cells
  deriving DecidableEq, Repr

/-- The whole machine. `turns` and `draws` are the model's own fields (DESIGN CHOICE, log entries 6 and 2);
`script`, `hostPc` and `temps` are the host agent's (DESIGN CHOICE, log entry 7). -/
structure State where
  /-- ENG (R40). -/
  eng : Engine
  /-- STATUS.BUSY (R36). -/
  busy : Bool
  /-- STATUS.DONE (R36). -/
  done : Bool
  /-- STATUS.ERR (R36). -/
  err : Bool
  /-- ERRCODE.CODE (R37). -/
  errCode : ErrCode
  /-- IN, BA, BB, BC and OUT (R31). -/
  mem : Memory
  /-- The host's script (R125). -/
  script : List Stmt
  /-- The index of the host's next statement. -/
  hostPc : Nat
  /-- The host's temporaries (R125). -/
  temps : Cells
  /-- Who moves next, first to last (DESIGN CHOICE, log entry 6). -/
  turns : List Turn
  /-- How many resets have interrupted a command: it numbers the free draws of R321 (DESIGN CHOICE,
  log entry 2). -/
  draws : Nat
  deriving DecidableEq, Repr

/-- Why a step can stop the machine. The block itself has no trap and never stops (R280). -/
inductive Fault where
  /-- Raised by a host turn whose JZ or JNZ jumps to a label its script does not hold, to which R125
  gives no meaning. DESIGN CHOICE, safe: nothing is proved of such a script
  (log entry 9). -/
  | noSuchLabel (l : Label)
  deriving DecidableEq, Repr

/-- Why an instruction is refused. Every command of the table has its meaning, so no arm of `exec`
refuses. -/
inductive Refusal where
  /-- The named instruction has no meaning in the model. Raised by nothing; safe. -/
  | notModelled (mnemonic : String)
  deriving DecidableEq, Repr

/-- Nothing written: every byte is its power-on draw (R33, R47). -/
def Memory.powerOn : Memory := { inp := [], ba := [], bb := [], bc := [], out := [] }

/-- The machine after power-on reset: the values of R47. The host has no script yet (DESIGN CHOICE,
log entry 7), and no turn is fixed (DESIGN CHOICE, log entry 6). -/
def State.reset : State where
  eng := .idle
  busy := false
  done := false
  err := false
  errCode := .noError
  mem := Memory.powerOn
  script := []
  hostPc := 0
  temps := []
  turns := []
  draws := 0

end Sys2Proof.Machine
end

