-- ==== Sys2Proof/Machine/Ops.lean ====
section
/-! DEFINITION. The named operations over buffer bytes, temporaries and the error event: reading and
writing one byte (10_state R31 to R33), writing a whole destination (30_encoding R122), the
canonical form of memory, recording an error event (60_exceptions R284) and acknowledging it (R36,
R290). -/

namespace Sys2Proof.Machine

/-- The byte listed at an index, if something has been written there. -/
def cellsGet : Cells → Nat → Option Byte
  | [], _ => none
  | (k, v) :: r, i => if k = i then some v else cellsGet r i

/-- Writes one byte, keeping the indexes strictly rising. -/
def cellsSet : Cells → Nat → Byte → Cells
  | [], i, v => [(i, v)]
  | (k, w) :: r, i, v =>
    if i < k then (i, v) :: (k, w) :: r
    else if i = k then (i, v) :: r
    else (k, w) :: cellsSet r i v

/-- Every index below `len` written, index `i` with `f i`. -/
def cellsFill (len : Nat) (f : Nat → Byte) : Cells :=
  (List.range len).map fun i => (i, f i)

/-- Indexes strictly rise, and all of them are at least `lo`. -/
def cellsRiseFrom : Nat → Cells → Bool
  | _, [] => true
  | lo, (k, _) :: r => decide (lo ≤ k) && cellsRiseFrom (k + 1) r

/-- The canonical form of one buffer: indexes strictly rising and below the buffer's length. No listed
byte is an unwritten one, because unwritten bytes are exactly the unlisted ones (DESIGN CHOICE,
log entry 3). -/
def cellsWf (len : Nat) (cs : Cells) : Bool :=
  cellsRiseFrom 0 cs && cs.all fun c => decide (c.1 < len)

/-- The cells of a buffer. -/
def Memory.cells (m : Memory) : Buf → Cells
  | .inp => m.inp
  | .ba => m.ba
  | .bb => m.bb
  | .bc => m.bc
  | .out => m.out

/-- Replaces the cells of one buffer; the buffers never alias (R31). -/
def Memory.setCells (m : Memory) (X : Buf) (cs : Cells) : Memory :=
  match X with
  | .inp => { m with inp := cs }
  | .ba => { m with ba := cs }
  | .bb => { m with bb := cs }
  | .bc => { m with bc := cs }
  | .out => { m with out := cs }

/-- The memory's canonical form: each buffer's. -/
def Memory.wf (m : Memory) : Bool :=
  cellsWf (Config.bufLen .inp) m.inp && cellsWf (Config.bufLen .ba) m.ba &&
    cellsWf (Config.bufLen .bb) m.bb && cellsWf (Config.bufLen .bc) m.bc &&
    cellsWf (Config.bufLen .out) m.out

/-- What an unlisted byte of a buffer reads as: its power-on free draw (R33). -/
def unlistedByte (X : Buf) (i : Nat) : Byte := Config.powerOnByte X i

/-- `X[i]`: byte `i` of buffer `X` (R10, R32). -/
def State.byte (s : State) (X : Buf) (i : Nat) : Byte :=
  (cellsGet (s.mem.cells X) i).getD (unlistedByte X i)

/-- `X[i] <- v` (R76). -/
def State.setByte (s : State) (X : Buf) (i : Nat) (v : Byte) : State :=
  { s with mem := s.mem.setCells X (cellsSet (s.mem.cells X) i v) }

/-- Writes every byte of a buffer, byte `i` with `f i` (R122: a command writes every byte of its
destination). -/
def State.fillBuf (s : State) (X : Buf) (f : Nat → Byte) : State :=
  { s with mem := s.mem.setCells X (cellsFill (Config.bufLen X) f) }

/-- The value a host temporary holds (R125); before anything is read into it, a free value
(DESIGN CHOICE, log entry 8). -/
def State.temp (s : State) (t : Temp) : Byte :=
  (cellsGet s.temps t).getD (Config.unsetTemp t)

/-- `t <- v` for a host temporary. -/
def State.setTemp (s : State) (t : Temp) (v : Byte) : State :=
  { s with temps := cellsSet s.temps t v }

/-- `raise E(code)` (R284), the one shared operation of every error event: it sets STATUS.ERR and
records the code, and changes nothing else. -/
def raiseError (code : ErrCode) (s : State) : State :=
  { s with err := true, errCode := code }

/-- The acknowledgement of an error (R36, R290): STATUS.ERR and ERRCODE.CODE cleared together. -/
def clearError (s : State) : State :=
  { s with err := false, errCode := .noError }

end Sys2Proof.Machine
end

