-- ==== Sys2Proof/Machine/Operands.lean ====
section
/-! DEFINITION. The fixed operands of each command (30_encoding R122) and where a host address leads
(20_memory R71, R72). -/

namespace Sys2Proof.Machine

/-- The buffer a command reads (R122). RUN_ALL reads IN; the buffers its later stages read are ones
it has itself written (R260). -/
def sourceOf : Instr → Buf
  | .runA => .inp
  | .runB => .ba
  | .runC => .bb
  | .runD => .bc
  | .runAll => .inp

/-- The buffers a command writes (R122, R321). -/
def destsOf : Instr → List Buf
  | .runA => [.ba]
  | .runB => [.bb]
  | .runC => [.bc]
  | .runD => [.out]
  | .runAll => [.ba, .bb, .bc, .out]

/-- What a host address reaches (R72). -/
inductive Target where
  /-- Byte `i` of buffer `X`. -/
  | buffer (X : Buf) (i : Nat)
  /-- 0xC000. -/
  | cmd
  /-- 0xC001. -/
  | status
  /-- 0xC002. -/
  | errcode
  /-- 0xC003. -/
  | geom
  /-- 0xC004 to 0xFFFF. -/
  | reserved
  deriving DecidableEq, Repr

/-- `decode(addr)` of R72. -/
def target (addr : Addr) : Target :=
  let a := addr.toNat
  if a < 0x2000 then .buffer .inp a
  else if a < 0x4000 then .buffer .ba (a - 0x2000)
  else if a < 0x6000 then .buffer .bb (a - 0x4000)
  else if a < 0x8000 then .buffer .bc (a - 0x6000)
  else if a < 0xC000 then .buffer .out (a - 0x8000)
  else if a = 0xC000 then .cmd
  else if a = 0xC001 then .status
  else if a = 0xC002 then .errcode
  else if a = 0xC003 then .geom
  else .reserved

/-- The host address of `X+i`: the base of `X` plus `i` (R71, R125). Where the sum is 0x10000 or more it
is no 16-bit address (R70) and the spec gives it no meaning; there the model takes the sum modulo 2^16
(DESIGN CHOICE, unsafe, log entry 14), and `srcWellFormed` refuses a FILL or LOAD that gets there. -/
def bufAddr (X : Buf) (i : Nat) : Addr := BitVec.ofNat 16 (Config.bufBase X + i)

/-- The register addresses of R34. -/
def cmdAddr : Addr := 0xC000
/-- STATUS (R34). -/
def statusAddr : Addr := 0xC001
/-- ERRCODE (R34). -/
def errcodeAddr : Addr := 0xC002
/-- GEOM (R34). -/
def geomAddr : Addr := 0xC003

end Sys2Proof.Machine
end

