-- ==== Sys2Proof/Machine/Flags.lean ====
section
/-! DEFINITION. Every flag computation: the STATUS and ERRCODE bytes a read returns (20_memory R73),
write-1-to-clear (10_state R36), acceptance (40 R151), the completion's flags (40 R155) and
reset's (70 R320). -/

namespace Sys2Proof.Machine

/-- A flag as one bit. -/
def flagBit (b : Bool) : BitVec 1 := BitVec.ofBool b

/-- The STATUS byte: bits 7:3 reserved and 0, then ERR, DONE, BUSY (R36, R73). -/
def readStatus (s : State) : Byte :=
  (((0#5) ++ flagBit s.err) ++ flagBit s.done) ++ flagBit s.busy

/-- The two bits of ERRCODE.CODE (R37, R281). -/
def errBits : ErrCode → BitVec 2
  | .noError => 0
  | .illegalCmd => 1
  | .cmdWhileBusy => 2
  | .accessWhileBusy => 3

/-- The ERRCODE byte: bits 7:2 reserved and 0 (R37, R73). -/
def readErrcode (s : State) : Byte := (errBits s.errCode).zeroExtend 8

/-- Clears DONE if bit 1 of the written value is set (R36). -/
def clearDoneIf (v : Byte) (s : State) : State :=
  if v.getLsbD 1 then { s with done := false } else s

/-- Clears ERR and ERRCODE if bit 2 of the written value is set (R36). -/
def clearErrIf (v : Byte) (s : State) : State :=
  if v.getLsbD 2 then clearError s else s

/-- A host write of `v` to STATUS (R36). -/
def writeStatus (v : Byte) (s : State) : State := clearErrIf v (clearDoneIf v s)

/-- `accept(c)` (R151): ENG, BUSY and DONE; ERR, ERRCODE and the buffers are unchanged. -/
def accept (c : Instr) (s : State) : State :=
  { s with eng := .running c, busy := true, done := false }

/-- What completion does beside writing the destination (R155). -/
def finish (s : State) : State :=
  { s with eng := .idle, busy := false, done := true }

/-- Every byte of the buffers listed becomes a free draw, those of interruption number `k` (R321). -/
def drawBufs (k : Nat) : List Buf → State → State
  | [], s => s
  | X :: r, s => drawBufs k r (s.fillBuf X (Config.interruptedByte k X))

/-- `interrupted(c)` (R321): every destination byte of the running command is left a free draw. -/
def interrupted (c : Instr) (s : State) : State :=
  { drawBufs s.draws (destsOf c) s with draws := s.draws + 1 }

/-- The interruption, if a command is running (R320, R322). -/
def interruptedIfRunning (s : State) : State :=
  match s.eng with
  | .idle => s
  | .running c => interrupted c s

/-- What reset does to ENG, STATUS and ERRCODE (R320). -/
def resetFlags (s : State) : State :=
  { s with eng := .idle, busy := false, done := false, err := false, errCode := .noError }

/-- `reset()` (R320): the block is reset; the host agent is not part of it. -/
def resetBlock (s : State) : State := resetFlags (interruptedIfRunning s)

end Sys2Proof.Machine
end

