-- ==== Sys2Proof/Machine/StageA.lean ====
section
/-! DEFINITION. Stage A, row reversal (41_stage_a_row_reversal): RUN_A. -/

namespace Sys2Proof.Machine

/-- The source index of destination index `j` (R172's equivalent form): band `b'` comes from band
`NB - 1 - b'`, each 8-byte group keeps its position in the band, and its bytes are reversed. The
band count is even, so no band is its own pair (R174). -/
def indexA (j : Nat) : Nat :=
  (Config.NB - 1 - j / Config.bprA) * Config.bprA + 8 * (j % Config.bprA / 8) + (7 - j % 8)

/-- `F_RUN_A`: byte `j` of BA from the bytes of IN (R172). -/
def stageA (src : Nat → Byte) (j : Nat) : Byte := src (indexA j)

/-- Stage A's writes: every byte of BA (R122, R172). -/
def writeStageA (s : State) : State := s.fillBuf .ba (stageA (s.byte .inp))

/-- RUN_A, executed by the engine (R153, R155, R172). -/
def execRunA (s : State) : Host.Outcome State Fault Refusal := .next (finish (writeStageA s))

end Sys2Proof.Machine
end

