-- ==== Sys2Proof/Machine/StageB.lean ====
section
/-! DEFINITION. Stage B, tile reordering (42_stage_b_tile_reorder): RUN_B. -/

namespace Sys2Proof.Machine

/-- The source index of destination index `j` (R192's equivalent form): half `h`, run `u`, position
`p` in the run, byte `r`. -/
def indexB (j : Nat) : Nat :=
  let h := j / Config.H
  let u := j % Config.H / (Config.H / 2)
  let p := j % (Config.H / 2) / 8
  let r := j % 8
  h * Config.H + 8 * (2 * p + u) + r

/-- `F_RUN_B`: byte `j` of BB from the bytes of BA (R192). -/
def stageB (src : Nat → Byte) (j : Nat) : Byte := src (indexB j)

/-- Stage B's writes: every byte of BB (R122, R192). -/
def writeStageB (s : State) : State := s.fillBuf .bb (stageB (s.byte .ba))

/-- RUN_B, executed by the engine (R153, R155, R192). -/
def execRunB (s : State) : Host.Outcome State Fault Refusal := .next (finish (writeStageB s))

end Sys2Proof.Machine
end

