-- ==== Sys2Proof/Machine/StageC.lean ====
section
/-! DEFINITION. Stage C, bitplane merging (43_stage_c_bitplane_merge): RUN_C. -/

namespace Sys2Proof.Machine

/-- Bit `i` of `a` at output position `2i` and bit `i` of `b` at `2i + 1`, the other bits 0 (R210). -/
def mergeLane (a b : Byte) (i : Nat) : MergeWord :=
  ((a >>> i &&& 1#8).zeroExtend 16 <<< (2 * i)) |||
    ((b >>> i &&& 1#8).zeroExtend 16 <<< (2 * i + 1))

/-- `merge_bits(a, b)` (R210): eight independent lanes. -/
def mergeBits (a b : Byte) : MergeWord :=
  mergeLane a b 0 ||| mergeLane a b 1 ||| mergeLane a b 2 ||| mergeLane a b 3 |||
    mergeLane a b 4 ||| mergeLane a b 5 ||| mergeLane a b 6 ||| mergeLane a b 7

/-- `m[15:8]`, stored at the lower index (R213). -/
def mergeHigh (m : MergeWord) : Byte := m.extractLsb' 8 8

/-- `m[7:0]`, stored at the higher index (R213). -/
def mergeLow (m : MergeWord) : Byte := m.extractLsb' 0 8

/-- Working value of R41 as a function of the source offset (R212). -/
def byteInTile (j : Nat) : Nat := j % 8
/-- Working value of R41: wraps at the tile columns (R212). -/
def currentCol (j : Nat) : Nat := j / 8 % Config.n
/-- Working value of R41: one more every BPR_C source bytes (R212). -/
def currentRow (j : Nat) : Nat := j / Config.bprC

/-- `dest(h, j)`: where the merged word of source offset `j` of half `h` goes (R212). -/
def dest (h j : Nat) : Nat :=
  h * Config.H + byteInTile j * Config.n * 2 + currentCol j * 2 +
    currentRow j * Config.bprC * 2

/-- The half whose merged word covers destination byte `d` (R215). -/
def halfOfDest (d : Nat) : Nat := d / Config.H

/-- The source offset whose merged word covers destination byte `d`: the inverse of `dest` (R215). By
R216, `d` is in scanline `d div SL2`, which is pixel row `byte_in_tile` of tile row `current_row`
of its half, at column `(d mod SL2) div 2`. -/
def offsetOfDest (d : Nat) : Nat :=
  let row := d % Config.H / (8 * Config.SL2)
  let byteRow := d / Config.SL2 % 8
  let col := d % Config.SL2 / 2
  8 * (row * Config.n + col) + byteRow

/-- The merged word of source offset `j` of half `h` (R214): layer 0 gives the low bits, layer 1 the
high ones. -/
def mergedWord (src : Nat → Byte) (h j : Nat) : MergeWord :=
  mergeBits (src (h * Config.H + j)) (src (h * Config.H + Config.Q + j))

/-- `F_RUN_C`: byte `d` of BC from the bytes of BB. Every `dest` is even, so an even `d` holds the high
byte of the word that covers it and an odd one the low byte (R213, R214, R215; DEDUCED,
log entry 4). -/
def stageC (src : Nat → Byte) (d : Nat) : Byte :=
  let m := mergedWord src (halfOfDest d) (offsetOfDest d)
  if d % 2 = 0 then mergeHigh m else mergeLow m

/-- Stage C's writes: every byte of BC (R122, R214). -/
def writeStageC (s : State) : State := s.fillBuf .bc (stageC (s.byte .bb))

/-- RUN_C, executed by the engine (R153, R155, R214). -/
def execRunC (s : State) : Host.Outcome State Fault Refusal := .next (finish (writeStageC s))

end Sys2Proof.Machine
end

