-- ==== Sys2Proof/Machine/StageD.lean ====
section
/-! DEFINITION. Stage D, pixel-depth decompression (44_stage_d_depth_decomp): RUN_D. -/

namespace Sys2Proof.Machine

/-- The first byte of `expand(x)`: pixels 0 and 1 (R240). -/
def expandHi (x : Byte) : Byte := (((x >>> 6) &&& 3#8) <<< 4) ||| ((x >>> 4) &&& 3#8)

/-- The second byte of `expand(x)`: pixels 2 and 3 (R240). -/
def expandLo (x : Byte) : Byte := (((x >>> 2) &&& 3#8) <<< 4) ||| (x &&& 3#8)

/-- `F_RUN_D`: OUT[2i] and OUT[2i+1] are the two bytes of `expand(BC[i])` (R242). -/
def stageD (src : Nat → Byte) (k : Nat) : Byte :=
  if k % 2 = 0 then expandHi (src (k / 2)) else expandLo (src (k / 2))

/-- Stage D's writes: every byte of OUT (R122, R242). -/
def writeStageD (s : State) : State := s.fillBuf .out (stageD (s.byte .bc))

/-- RUN_D, executed by the engine (R153, R155, R242). -/
def execRunD (s : State) : Host.Outcome State Fault Refusal := .next (finish (writeStageD s))

end Sys2Proof.Machine
end

