-- ==== Sys2Proof/Machine/RunAll.lean ====
section
/-! DEFINITION. The whole pipeline (45_run_all): RUN_ALL. -/

namespace Sys2Proof.Machine

/-- The four stages in their fixed order, each after the previous one has written all of its
destination (R260). -/
def writeAllStages (s : State) : State :=
  writeStageD (writeStageC (writeStageB (writeStageA s)))

/-- RUN_ALL, executed by the engine: one completion for the whole command (R155, R260). -/
def execRunAll (s : State) : Host.Outcome State Fault Refusal := .next (finish (writeAllStages s))

end Sys2Proof.Machine
end

