-- ==== Sys2Proof/Machine/Dispatch.lean ====
section
/-! DEFINITION. What the engine does when it executes the accepted command (40_command_unit R153,
R155). The step calls it only while ENG = Running(i). -/

namespace Sys2Proof.Machine

def exec (i : Instr) (s : State) : Host.Outcome State Fault Refusal :=
  match i with
  | .runA => Sys2Proof.Machine.execRunA s
  | .runB => Sys2Proof.Machine.execRunB s
  | .runC => Sys2Proof.Machine.execRunC s
  | .runD => Sys2Proof.Machine.execRunD s
  | .runAll => Sys2Proof.Machine.execRunAll s

end Sys2Proof.Machine
end

