-- ==== Sys2Proof/WellFormed.lean ====
section
/-! DEFINITION. Which syntax is well formed. A command has no operand, field or immediate (30_encoding
R122, R123), so every command is; a host script (R125) is when each jump's label names exactly one
place in it; a source script (R126) is when its own statements are, name no fresh label, and its FILL
and LOAD stay inside the 16-bit address space (20_memory R70). -/

namespace Sys2Proof

/-- Every command is well formed: R122 gives none of them an operand that could be out of range. -/
def Instr.wellFormed : Instr → Bool
  | .runA => true
  | .runB => true
  | .runC => true
  | .runD => true
  | .runAll => true

/-- The labels a script defines, in order (R125: `label:` "names the next statement"). -/
def scriptLabels : List Stmt → List Label
  | [] => []
  | .label l :: r => l :: scriptLabels r
  | _ :: r => scriptLabels r

/-- A statement's jump target, where it is a jump, is a label among `ls` (R125: "continue at label"). -/
def Stmt.targetIn (ls : List Label) : Stmt → Bool
  | .jz _ _ l => ls.contains l
  | .jnz _ _ l => ls.contains l
  | .write _ _ => true
  | .read _ _ => true
  | .label _ => true
  | .halt => true

/-- No label is defined twice. -/
def labelsDistinct : List Label → Bool
  | [] => true
  | l :: r => !r.contains l && labelsDistinct r

/-- A host script is well formed: every jump names a label of the script, and no label is defined
twice. -/
def scriptWellFormed (script : List Stmt) : Bool :=
  labelsDistinct (scriptLabels script) &&
    script.all (Stmt.targetIn (scriptLabels script))

/-- A label that a script's writer can name; a fresh one (R126) is not. -/
def Label.isNamed : Label → Bool
  | .named _ => true
  | .fresh _ => false

/-- Every label a statement defines or jumps to is one a writer can name. -/
def Stmt.namesOnly : Stmt → Bool
  | .write _ _ => true
  | .read _ _ => true
  | .label l => l.isNamed
  | .jz _ _ l => l.isNamed
  | .jnz _ _ l => l.isNamed
  | .halt => true

/-- The `count` addresses from `X+i` on are 16-bit addresses (R70, R125). -/
def addressesFit (X : Buf) (i count : Nat) : Bool :=
  decide (Config.bufBase X + i + count ≤ 0x10000)

/-- One statement of a source script, by itself (R126). -/
def SrcStmt.wellFormed : SrcStmt → Bool
  | .plain st => st.namesOnly
  | .cmd _ => true
  | .waitDone => true
  | .waitIdle => true
  | .clear => true
  | .fill X i count _ => addressesFit X i count
  | .load X i vs => addressesFit X i vs.length

/-- The statements of R125 in a source script, its pseudo-statements left out. -/
def plainStmts : List SrcStmt → List Stmt
  | [] => []
  | .plain st :: r => st :: plainStmts r
  | _ :: r => plainStmts r

/-- A source script is well formed: each statement is, and the writer's own jumps and labels are. -/
def srcWellFormed (src : List SrcStmt) : Bool :=
  src.all SrcStmt.wellFormed && scriptWellFormed (plainStmts src)

end Sys2Proof
end

