-- ==== Sys2Proof/Decode.lean ====
section
/-! DEFINITION. The command decoder and encoder (30_encoding R120, R121, R124), and the word the
opcode table gives a row. -/

namespace Sys2Proof

/-- Why a byte is no command (R124). -/
inductive DecodeError where
  /-- Field Z, bits 7:3, is not 00000. -/
  | reservedBits (v : Byte)
  /-- Z is 00000 and OP, bits 2:0, is 0, 6 or 7. -/
  | unassignedOp (v : Byte)
  deriving DecidableEq, Repr

/-- Field Z of format CMD8, bits 7:3 (R120). -/
def fieldZ (v : Byte) : BitVec 5 := v.extractLsb' 3 5

/-- Field OP of format CMD8, bits 2:0 (R120). -/
def fieldOp (v : Byte) : BitVec 3 := v.extractLsb' 0 3

/-- The operation an OP value selects when Z is zero (R120). -/
def decodeOp (v : Byte) : Except DecodeError Instr :=
  if fieldOp v = 1 then .ok .runA
  else if fieldOp v = 2 then .ok .runB
  else if fieldOp v = 3 then .ok .runC
  else if fieldOp v = 4 then .ok .runD
  else if fieldOp v = 5 then .ok .runAll
  else .error (.unassignedOp v)

/-- The decoder: total on all 256 bytes (R124: "The CMD decoder is total"). -/
def decode (v : Byte) : Except DecodeError Instr :=
  if fieldZ v = 0 then decodeOp v else .error (.reservedBits v)

/-- OP of a command (R120). -/
def opOf : Instr → BitVec 3
  | .runA => 1
  | .runB => 2
  | .runC => 3
  | .runD => 4
  | .runAll => 5

/-- The encoder, `code(name)` of R126: Z = 00000 in bits 7:3 and OP in bits 2:0 (R120). -/
def encode (c : Instr) : Byte := (0#5) ++ opOf c

/-- The decoder on a stream of bytes: every command is one byte long (R121). -/
def decodeBytes : List Byte → Option (Instr × List Byte)
  | [] => none
  | v :: rest =>
    match decode v with
    | .ok c => some (c, rest)
    | .error _ => none

/-- The `k` bytes of a word, least significant first: the opcode table's numbering. -/
def bytesOfWord : Nat → Nat → List Byte
  | 0, _ => []
  | k + 1, w => BitVec.ofNat 8 w :: bytesOfWord k (w / 256)

/-- The instruction the decoder reads from the table word `w` of `nbits` bits (at least one byte,
since every command has one, R121). -/
def decodeTableWord (nbits w : Nat) : Option Instr :=
  (decodeBytes (bytesOfWord (max 1 (nbits / 8)) w)).map Prod.fst

end Sys2Proof
end

