-- ==== Sys2Proof/Machine/Port.lean ====
section
/-! DEFINITION. The command unit's presentation (40_command_unit R150) and the host port's two
transactions (20_memory R70, R73, R74, R76 to R78). -/

namespace Sys2Proof.Machine

/-- The legality test of R150 on a byte presented while idle: a command is accepted (R151), any other
byte raises ILLEGAL_CMD and starts nothing (R283). -/
def presentIdle (v : Byte) (s : State) : State :=
  match decode v with
  | .ok c => accept c s
  | .error _ => raiseError .illegalCmd s

/-- `present(v)` (R150): the BUSY test comes first, and a command presented while busy is discarded
(R282). -/
def present (v : Byte) (s : State) : State :=
  if s.busy then raiseError .cmdWhileBusy s else presentIdle v s

/-- A buffer read: the byte while idle (R76), 0x00 and ACCESS_WHILE_BUSY while busy (R78). -/
def readBuffer (X : Buf) (i : Nat) (s : State) : Byte × State :=
  if s.busy then (0x00, raiseError .accessWhileBusy s) else (s.byte X i, s)

/-- A buffer write: the byte while idle (R76), dropped with ACCESS_WHILE_BUSY while busy (R78). -/
def writeBuffer (X : Buf) (i : Nat) (v : Byte) (s : State) : State :=
  if s.busy then raiseError .accessWhileBusy s else s.setByte X i v

/-- `MemRead(addr, 1)`: the value returned and the state after (R73, R74, R76, R78). -/
def memRead (addr : Addr) (s : State) : Byte × State :=
  match target addr with
  | .buffer X i => readBuffer X i s
  | .cmd => (0x00, s)
  | .status => (readStatus s, s)
  | .errcode => (readErrcode s, s)
  | .geom => (Config.geom, s)
  | .reserved => (0x00, s)

/-- `MemWrite(addr, 1, v)` (R73, R74, R76, R78). -/
def memWrite (addr : Addr) (v : Byte) (s : State) : State :=
  match target addr with
  | .buffer X i => writeBuffer X i v s
  | .cmd => present v s
  | .status => writeStatus v s
  | .errcode => s
  | .geom => s
  | .reserved => s

end Sys2Proof.Machine
end

