-- ==== Sys2Proof/Machine/Turns.lean ====
section
/-! DEFINITION. The two agents' turns (10_state R30, 20_memory R84): the host's next script statement
(30_encoding R125), the engine's completion step (40 R155), reset (70 R320); and which turn is
next. -/

namespace Sys2Proof.Machine

/-- The position of a label in a script (R125: `label:` "names the next statement"). -/
def labelAt (l : Label) : List Stmt → Option Nat
  | [] => none
  | st :: r => if st = .label l then some 0 else (labelAt l r).map (· + 1)

/-- The host goes on with the next statement. -/
def hostNext (s : State) : State := { s with hostPc := s.hostPc + 1 }

/-- The host continues at a label (R125); a label the script does not hold stops it (DESIGN CHOICE,
log entry 9). -/
def hostJump (l : Label) (s : State) : Host.Outcome State Fault Refusal :=
  match labelAt l s.script with
  | some k => .next { s with hostPc := k }
  | none => .fault (.noSuchLabel l)

/-- A conditional jump of the host (R125). -/
def hostJumpIf (b : Bool) (l : Label) (s : State) : Host.Outcome State Fault Refusal :=
  if b then hostJump l s else .next (hostNext s)

/-- `R addr -> t` (R125). -/
def hostRead (addr : Addr) (t : Temp) (s : State) : State :=
  hostNext ((memRead addr s).2.setTemp t (memRead addr s).1)

/-- `W addr, v` (R125). -/
def hostWrite (addr : Addr) (v : Byte) (s : State) : State :=
  hostNext (memWrite addr v s)

/-- One statement of the host's script (R125). HALT ends the script: the host stays on it (DESIGN
CHOICE, log entry 10). -/
def hostStmt (st : Stmt) (s : State) : Host.Outcome State Fault Refusal :=
  match st with
  | .write addr v => .next (hostWrite addr v s)
  | .read addr t => .next (hostRead addr t s)
  | .label _ => .next (hostNext s)
  | .jz t mask l => hostJumpIf (s.temp t &&& mask == 0#8) l s
  | .jnz t mask l => hostJumpIf (s.temp t &&& mask != 0#8) l s
  | .halt => .next s

/-- The host's turn: its next statement, if its script has one; past the script's end the host issues
nothing (DESIGN CHOICE, log entry 10). -/
def hostTurn (s : State) : Host.Outcome State Fault Refusal :=
  match s.script[s.hostPc]? with
  | some st => hostStmt st s
  | none => .next s

/-- The engine's turn: the completion step, "enabled only when ENG = Running(c)" (R155). While idle
the engine does nothing (R297). -/
def engineTurn (s : State) : Host.Outcome State Fault Refusal :=
  match s.eng with
  | .idle => .next s
  | .running c => exec c s

/-- One turn of the total order of R84. -/
def takeTurn (t : Turn) (s : State) : Host.Outcome State Fault Refusal :=
  match t with
  | .host => hostTurn s
  | .engine => engineTurn s
  | .reset => .next (resetBlock s)

/-- Who moves when no turn is listed: a running engine completes (R330), else the host goes on
(DESIGN CHOICE, log entry 6). -/
def defaultTurn (s : State) : Turn :=
  match s.eng with
  | .idle => .host
  | .running _ => .engine

/-- Who moves next. -/
def nextTurn (s : State) : Turn :=
  match s.turns with
  | t :: _ => t
  | [] => defaultTurn s

/-- The listed turn is used up. -/
def dropTurn (s : State) : State := { s with turns := s.turns.tail }

/-- The state in which the engine's next turn executes `c`: the command accepted as a CMD write
accepts it (R151), and the engine to move. -/
def loadCommand (c : Instr) (s : State) : State :=
  { accept c s with turns := .engine :: s.turns }

/-- The state in which the host's next turn presents `v` to CMD (R150). -/
def loadPresentation (v : Byte) (s : State) : State :=
  { s with script := [.write cmdAddr v], hostPc := 0, turns := .host :: s.turns }

end Sys2Proof.Machine
end

