-- ==== Sys2Proof/Machine/Step.lean ====
section
/-! DEFINITION. One step of the machine: the next turn of the total order of 20_memory R84 is taken. -/

namespace Sys2Proof.Machine

/-- One step: the next turn is used up and taken. -/
def step (s : State) : Host.Outcome State Fault Refusal := takeTurn (nextTurn s) (dropTurn s)

/-- `s` with the table word `w` where the engine takes its next command. CHRXC fetches nothing (R46,
R88): a command runs because a CMD write accepted it, so a command's word is loaded as accepted,
with the engine to move, and the very next step executes it. A word that is no command can only be
presented to CMD, which the very next step does (DESIGN CHOICE, log entry 11). -/
def State.withFetchWord (s : State) (nbits w : Nat) : State :=
  match decodeTableWord nbits w with
  | some c => loadCommand c s
  | none => loadPresentation (BitVec.ofNat 8 w) s

end Sys2Proof.Machine
end

