-- ==== Sys2Proof/Machine/Formats.lean ====
section
/-! DEFINITION. The data formats of the buffers as pixels (30_encoding R110, R113, R114): what the
bytes the stages move stand for. -/

namespace Sys2Proof.Machine

/-- The first byte of the tile that holds image pixel (x, y) (R110). -/
def tileBase (x y : Nat) : Nat :=
  let h := y / (8 * Config.n)
  let tr := y % (8 * Config.n) / 8
  let tc := x / 8
  h * Config.H + 16 * (tr * Config.n + tc)

/-- Bit `7 - (x mod 8)` of a chunk byte: pixel column `x` (R110; PRESUMED, the spec's own
general knowledge, 93 G1, log entry 12). -/
def chunkBit (x : Nat) (v : Byte) : BitVec 1 := v.extractLsb' (7 - x % 8) 1

/-- `pix(x, y)`: the pixel of a CHR frame (R110), layer 1 above layer 0. -/
def pix (src : Nat → Byte) (x y : Nat) : BitVec 2 :=
  chunkBit x (src (tileBase x y + 8 + y % 8)) ++ chunkBit x (src (tileBase x y + y % 8))

/-- Pixel `x` of scanline `s` of a 2bpp raster (R113): four pixels a byte, leftmost in bits 7:6. -/
def rasterPixel2 (src : Nat → Byte) (x s : Nat) : BitVec 2 :=
  (src (Config.SL2 * s + x / 4)).extractLsb' (6 - 2 * (x % 4)) 2

/-- The nibble of pixel `x` of scanline `s` of a 4bpp raster (R114): the left pixel of a byte in bits
7:4, the right one in bits 3:0. -/
def rasterNibble4 (src : Nat → Byte) (x s : Nat) : BitVec 4 :=
  (src (Config.SL4 * s + x / 2)).extractLsb' (if x % 2 = 0 then 4 else 0) 4

end Sys2Proof.Machine
end

