-- ==== Sys2Proof/Machine/Script.lean ====
section
/-! DEFINITION. The pseudo-statements of host scripts and their expansions (30_encoding R126). -/

namespace Sys2Proof.Machine

/-- The temporary `t` that WAITDONE and WAITIDLE read STATUS into (R126; DESIGN CHOICE, log
entry 13). -/
def pollTemp : Temp := 0

/-- `W X+i, v0`, `W X+(i+1), v1`, … (R126). -/
def loadStmts (X : Buf) : Nat → List Byte → List Stmt
  | _, [] => []
  | i, v :: vs => .write (bufAddr X i) v :: loadStmts X (i + 1) vs

/-- The expansion of the statement at source position `k` (R126). -/
def expandStmt (k : Nat) : SrcStmt → List Stmt
  | .plain st => [st]
  | .cmd c => [.write cmdAddr (encode c)]
  | .waitDone =>
    [.label (.fresh k), .read statusAddr pollTemp, .jz pollTemp 0x02 (.fresh k)]
  | .waitIdle =>
    [.label (.fresh k), .read statusAddr pollTemp, .jnz pollTemp 0x01 (.fresh k)]
  | .clear => [.write statusAddr 0x06]
  | .fill X i count v => loadStmts X i (List.replicate count v)
  | .load X i vs => loadStmts X i vs

/-- The expansion of a source script from position `k` on. -/
def expandFrom : Nat → List SrcStmt → List Stmt
  | _, [] => []
  | k, st :: r => expandStmt k st ++ expandFrom (k + 1) r

/-- The script a source script stands for (R126). -/
def expandScript (src : List SrcStmt) : List Stmt := expandFrom 0 src

end Sys2Proof.Machine
end

