-- ==== Sys2Proof/Safety.lean ====
section
/-! DEFINITION. The machine's invariant (10_state R36, R37, R40; the memory's canonical form) and what
a host that keeps its duties does (20_memory R90, 70 R323, R324), in the terms claims use. -/

namespace Sys2Proof.Machine

/-- STATUS.BUSY = 1 exactly when ENG is not Idle (R40). -/
def State.busyMatches (s : State) : Bool := s.busy == decide (s.eng ≠ .idle)

/-- DONE = 1 and BUSY = 1 never hold together (R36). -/
def State.doneNotBusy (s : State) : Bool := !(s.done && s.busy)

/-- ERRCODE is 0 exactly when ERR is 0 (R36, R37, R284). -/
def State.errMatches (s : State) : Bool := s.err == decide (s.errCode ≠ .noError)

/-- The invariant every step keeps. -/
def State.inv (s : State) : Bool :=
  s.busyMatches && s.doneNotBusy && s.errMatches && s.mem.wf && cellsRiseFrom 0 s.temps

/-- Every byte of a buffer has been written since power-on (R33, R90). -/
def State.written (s : State) (X : Buf) : Bool :=
  (List.range (Config.bufLen X)).all fun i => (cellsGet (s.mem.cells X) i).isSome

/-- A host transaction that keeps the duty of R90 and R324: no buffer access, and no command, while
busy. -/
def dutiful (s : State) : Stmt → Bool
  | .write addr _ => !s.busy || decide (target addr = .status) || decide (target addr = .errcode) ||
      decide (target addr = .geom) || decide (target addr = .reserved)
  | .read addr _ => !s.busy || decide (addr.toNat ≥ 0xC000)
  | .label _ => true
  | .jz _ _ _ => true
  | .jnz _ _ _ => true
  | .halt => true

/-- What completion leaves in the sequencer and the flags (R155, R158): idle and done, the error flag
and code as before. -/
def completedFrom (s t : State) : Prop :=
  t.eng = .idle ∧ t.busy = false ∧ t.done = true ∧ t.err = s.err ∧ t.errCode = s.errCode

/-- The host agent, the turns and the draw counter are as before: no command reaches them. -/
def environmentKept (s t : State) : Prop :=
  t.script = s.script ∧ t.hostPc = s.hostPc ∧ t.temps = s.temps ∧ t.turns = s.turns ∧
    t.draws = s.draws

/-- Every byte of every buffer outside the list reads as before. -/
def keptOutside (Xs : List Buf) (s t : State) : Prop :=
  ∀ X, X ∉ Xs → ∀ i, t.byte X i = s.byte X i

end Sys2Proof.Machine
end

