-- ==== Sys2Proof/Certificates/Slice0/Obligations.lean ====
section
/-! DEFINITION. The statements for the provers, each from numbered rules of the spec. Addresses, codes and
index formulas are written out at n = 16, as the rules give them. Statements about `step` speak of
the next turn of the model's turn list (log entry 6). -/

open Sys2Proof Sys2Proof.Machine

/-! ### Command codes -/

/-- R120: the five codes, and which byte each is. -/
def Obligations.CommandCodesDecode : Prop :=
  (∀ v, decode v = .ok .runA ↔ v = 0x01#8) ∧ (∀ v, decode v = .ok .runB ↔ v = 0x02#8) ∧
  (∀ v, decode v = .ok .runC ↔ v = 0x03#8) ∧ (∀ v, decode v = .ok .runD ↔ v = 0x04#8) ∧
  (∀ v, decode v = .ok .runAll ↔ v = 0x05#8) ∧
  (∀ c, fieldZ (encode c) = 0#5 ∧ decode (encode c) = .ok c)

/-- R124: every other byte is illegal, and what presenting it raises; any byte while busy raises
CMD_WHILE_BUSY instead. -/
def Obligations.EveryOtherByteIsIllegal : Prop :=
  (∀ v : Byte, (v = 0x00#8 ∨ v = 0x06#8 ∨ v = 0x07#8 ∨ fieldZ v ≠ 0#5) →
    (∃ e, decode v = .error e) ∧
    ∀ s : State, s.busy = false →
      memWrite 0xC000#16 v s = { s with err := true, errCode := .illegalCmd }) ∧
  (∀ (v : Byte) (s : State), s.busy = true →
    memWrite 0xC000#16 v s = { s with err := true, errCode := .cmdWhileBusy }) ∧
  ∀ v : Byte, (∃ c, v = encode c) ∨ v = 0x00#8 ∨ v = 0x06#8 ∨ v = 0x07#8 ∨ fieldZ v ≠ 0#5

/-- R121: a command is one byte, read back as itself with the bytes after it untouched. -/
def Obligations.EncodedCommandIsReadBack : Prop :=
  (∀ c rest, decodeBytes (encode c :: rest) = some (c, rest)) ∧
  ∀ v rest c rest', decodeBytes (v :: rest) = some (c, rest') → encode c = v ∧ rest' = rest

/-! ### The host port -/

/-- R71: the host address map, row by row, and which top address bits select which row. -/
def Obligations.AddressMapRows : Prop :=
  (∀ i < 8192, target (BitVec.ofNat 16 i) = .buffer .inp i) ∧
  (∀ i < 8192, target (BitVec.ofNat 16 (0x2000 + i)) = .buffer .ba i) ∧
  (∀ i < 8192, target (BitVec.ofNat 16 (0x4000 + i)) = .buffer .bb i) ∧
  (∀ i < 8192, target (BitVec.ofNat 16 (0x6000 + i)) = .buffer .bc i) ∧
  (∀ i < 16384, target (BitVec.ofNat 16 (0x8000 + i)) = .buffer .out i) ∧
  target 0xC000#16 = .cmd ∧ target 0xC001#16 = .status ∧ target 0xC002#16 = .errcode ∧
  target 0xC003#16 = .geom ∧ (∀ a : Addr, 0xC004 ≤ a.toNat → target a = .reserved) ∧
  (∀ a : Addr, (a.extractLsb' 13 3 = 0#3 ↔ ∃ i, target a = .buffer .inp i) ∧
    (a.extractLsb' 13 3 = 1#3 ↔ ∃ i, target a = .buffer .ba i) ∧
    (a.extractLsb' 13 3 = 2#3 ↔ ∃ i, target a = .buffer .bb i) ∧
    (a.extractLsb' 13 3 = 3#3 ↔ ∃ i, target a = .buffer .bc i) ∧
    (a.extractLsb' 14 2 = 2#2 ↔ ∃ i, target a = .buffer .out i) ∧
    (a.extractLsb' 14 2 = 3#2 ↔ ∀ X i, target a ≠ .buffer X i))

/-- R72: an address that leads to a buffer byte is the one address of that byte, and every byte of every
buffer has its address. -/
def Obligations.BufferByteHasOneAddress : Prop :=
  ∀ (a : Addr) (X : Buf) (i : Nat),
    target a = .buffer X i ↔ i < Config.bufLen X ∧ a.toNat = Config.bufBase X + i

/-- R73 with the field layouts of R36, R37 and R38: what each register reads as and what writing it
does, whatever BUSY is. -/
def Obligations.RegisterAccesses : Prop :=
  (∀ s : State,
    memRead 0xC000#16 s = (0x00#8, s) ∧
    memRead 0xC001#16 s =
      (BitVec.ofNat 8 (4 * s.err.toNat + 2 * s.done.toNat + s.busy.toNat), s) ∧
    memRead 0xC002#16 s = ((errBits s.errCode).zeroExtend 8, s) ∧
    memRead 0xC003#16 s = (0x10#8, s)) ∧
  (∀ (v : Byte) (s : State),
    memWrite 0xC000#16 v s = present v s ∧
    memWrite 0xC001#16 v s =
      { s with
        done := s.done && !v.getLsbD 1
        err := s.err && !v.getLsbD 2
        errCode := if v.getLsbD 2 then .noError else s.errCode } ∧
    memWrite 0xC002#16 v s = s ∧ memWrite 0xC003#16 v s = s) ∧
  errBits .noError = 0#2 ∧ errBits .illegalCmd = 1#2 ∧ errBits .cmdWhileBusy = 2#2 ∧
  errBits .accessWhileBusy = 3#2

/-- R74: reserved addresses read as 0x00, ignore writes, and raise nothing. -/
def Obligations.ReservedAddressesAreInert : Prop :=
  ∀ (a : Addr) (v : Byte) (s : State), 0xC004 ≤ a.toNat →
    memRead a s = (0x00#8, s) ∧ memWrite a v s = s

/-- R76: while idle a read returns the byte and changes nothing, and a write changes that byte and
nothing else. -/
def Obligations.IdleBufferAccess : Prop :=
  ∀ (a : Addr) (X : Buf) (i : Nat) (v : Byte) (s : State), s.busy = false →
    target a = .buffer X i →
    memRead a s = (s.byte X i, s) ∧
    (memWrite a v s).byte X i = v ∧
    (∀ Y j, ¬(Y = X ∧ j = i) → (memWrite a v s).byte Y j = s.byte Y j) ∧
    memWrite a v s = { s with mem := (memWrite a v s).mem }

/-- R78, R285: while busy every buffer access is refused: a read returns 0x00, a write changes no
buffer, and both record ACCESS_WHILE_BUSY and nothing else. -/
def Obligations.BusyBufferAccessIsRefused : Prop :=
  ∀ (a : Addr) (v : Byte) (s : State), s.busy = true → a.toNat < 0xC000 →
    memRead a s = (0x00#8, { s with err := true, errCode := .accessWhileBusy }) ∧
    memWrite a v s = { s with err := true, errCode := .accessWhileBusy }

/-- R77: register and reserved accesses do not depend on BUSY, beside bit 0 of the byte a STATUS read
returns, which is BUSY, and the BUSY test of a CMD write (R150). -/
def Obligations.RegisterAccessIgnoresBusy : Prop :=
  ∀ (a : Addr) (v : Byte) (b : Bool) (s : State), 0xC000 ≤ a.toNat →
    (a ≠ 0xC001#16 → (memRead a { s with busy := b }).1 = (memRead a s).1) ∧
    (memRead a { s with busy := b }).1.extractLsb' 1 7 = (memRead a s).1.extractLsb' 1 7 ∧
    (memRead a { s with busy := b }).2 = { s with busy := b } ∧
    (a ≠ 0xC000#16 → memWrite a v { s with busy := b } = { memWrite a v s with busy := b })

/-- R81: the only accesses with side effects are a buffer read or write, a write to CMD, and a write to
STATUS with bit 1 or 2 set; a read has one only as a buffer read while busy. -/
def Obligations.OnlyListedAccessesHaveSideEffects : Prop :=
  (∀ (a : Addr) (s : State), (memRead a s).2 ≠ s → s.busy = true ∧ a.toNat < 0xC000) ∧
  ∀ (a : Addr) (v : Byte) (s : State), memWrite a v s ≠ s →
    a.toNat < 0xC000 ∨ a = 0xC000#16 ∨
      (a = 0xC001#16 ∧ (v.getLsbD 1 = true ∨ v.getLsbD 2 = true))

/-! ### The command unit -/

/-- R150, R151, R282, R283: presenting a byte to CMD. The BUSY test comes first; a command is accepted
with ENG, BUSY and DONE alone changed; any other byte starts nothing. -/
def Obligations.PresentingACommand : Prop :=
  (∀ (v : Byte) (s : State), s.busy = true →
    memWrite 0xC000#16 v s = { s with err := true, errCode := .cmdWhileBusy }) ∧
  (∀ (v : Byte) (c : Instr) (s : State), s.busy = false → decode v = .ok c →
    memWrite 0xC000#16 v s = { s with eng := .running c, busy := true, done := false }) ∧
  (∀ (v : Byte) (s : State), s.busy = false →
    v ∉ [0x01#8, 0x02#8, 0x03#8, 0x04#8, 0x05#8] →
    memWrite 0xC000#16 v s = { s with err := true, errCode := .illegalCmd }) ∧
  ∀ v : Byte, (∃ c, decode v = .ok c) ↔ v ∈ [0x01#8, 0x02#8, 0x03#8, 0x04#8, 0x05#8]

/-- R46, R88, R150, R153, R155, R297: the CMD write of a decoded command makes the sequencer run it, the
engine's next turn is `exec` of it (and, while ENG = Idle, uses up the turn alone), and the word loaded by `withFetchWord` is executed by the very next step. -/
def Obligations.StepRunsTheDecodedCommand : Prop :=
  (∀ (s : State) (v : Byte) (c : Instr), nextTurn s = .host →
    s.script[s.hostPc]? = some (.write 0xC000#16 v) → s.busy = false → decode v = .ok c →
    step s = .next { dropTurn s with
      eng := .running c, busy := true, done := false, hostPc := s.hostPc + 1 }) ∧
  (∀ (s : State) (c : Instr), nextTurn s = .engine → s.eng = .running c →
    step s = exec c (dropTurn s)) ∧
  (∀ s : State, nextTurn s = .engine → s.eng = .idle → step s = .next (dropTurn s)) ∧
  ∀ (s : State) (nbits w : Nat) (c : Instr), decodeTableWord nbits w = some c →
    step (s.withFetchWord nbits w) =
      exec c { s with eng := .running c, busy := true, done := false }

/-- R155, R158, R75: whatever command completes, it completes with the sequencer idle, BUSY 0, DONE 1
and the error flag and code as before; it changes no buffer but its destinations, no byte of the host
agent, and it always completes. -/
def Obligations.EveryCommandCompletesWithItsFrame : Prop :=
  ∀ (c : Instr) (s : State), ∃ t, exec c s = .next t ∧ completedFrom s t ∧
    keptOutside (destsOf c) s t ∧ environmentKept s t

/-- R122: a command writes every byte of its destinations. -/
def Obligations.EveryDestinationByteIsWritten : Prop :=
  ∀ (c : Instr) (s t : State), exec c s = .next t → ∀ X ∈ destsOf c, t.written X = true

/-- R153, R263: what a command writes depends on its source buffer alone. -/
def Obligations.DestinationsDependOnTheSourceAlone : Prop :=
  ∀ (c : Instr) (s s' t t' : State),
    (∀ i < Config.bufLen (sourceOf c), s.byte (sourceOf c) i = s'.byte (sourceOf c) i) →
    exec c s = .next t → exec c s' = .next t' →
    ∀ X ∈ destsOf c, ∀ i < Config.bufLen X, t.byte X i = t'.byte X i

/-! ### The commands -/

/-- R172: RUN_A, in its pseudocode's form and for every destination index. -/
def Obligations.RunAReversesRows : Prop :=
  encode .runA = 0x01#8 ∧
  ∀ s : State, ∃ t, exec .runA s = .next t ∧
    (∀ b < 32, ∀ g < 32, ∀ r < 8,
      t.byte .ba ((31 - b) * 256 + 8 * g + (7 - r)) = s.byte .inp (b * 256 + 8 * g + r)) ∧
    (∀ j < 8192, t.byte .ba j =
      s.byte .inp ((31 - j / 256) * 256 + j % 256 / 8 * 8 + (7 - j % 8))) ∧
    completedFrom s t ∧ keptOutside [.ba] s t ∧ environmentKept s t

/-- R173: row reversal applied to its own output gives back its input. -/
def Obligations.RunAIsAnInvolution : Prop :=
  ∀ s t s' t' : State, exec .runA s = .next t →
    (∀ j < 8192, s'.byte .inp j = t.byte .ba j) → exec .runA s' = .next t' →
    ∀ j < 8192, t'.byte .ba j = s.byte .inp j

/-- R111, R175: after RUN_A, BA holds the image of IN turned upside down. -/
def Obligations.RunATurnsTheImageUpsideDown : Prop :=
  ∀ s t : State, exec .runA s = .next t → ∀ x < 128, ∀ y < 256,
    pix (t.byte .ba) x y = pix (s.byte .inp) x (255 - y)

/-- R192: RUN_B, in its pseudocode's form and for every destination index. -/
def Obligations.RunBReordersTiles : Prop :=
  encode .runB = 0x02#8 ∧
  ∀ s : State, ∃ t, exec .runB s = .next t ∧
    (∀ h < 2, ∀ k < 512, ∀ r < 8,
      t.byte .bb (h * 4096 + k % 2 * 2048 + k / 2 * 8 + r) =
        s.byte .ba (h * 4096 + 8 * k + r)) ∧
    (∀ j < 8192, t.byte .bb j =
      s.byte .ba (j / 4096 * 4096 + 8 * (2 * (j % 2048 / 8) + j % 4096 / 2048) + j % 8)) ∧
    completedFrom s t ∧ keptOutside [.bb] s t ∧ environmentKept s t

/-- R194: the interleave recovers BA from BB, and the reordering applied twice is not the identity: it
moves byte 8 to 2048 and then to 1024. -/
def Obligations.RunBHasAnInverseAndIsNoInvolution : Prop :=
  (∀ s t : State, exec .runB s = .next t → ∀ h < 2, ∀ k < 512, ∀ r < 8,
    s.byte .ba (h * 4096 + 8 * k + r) =
      t.byte .bb (h * 4096 + k % 2 * 2048 + k / 2 * 8 + r)) ∧
  (∀ s t s' t' : State, exec .runB s = .next t →
    (∀ j < 8192, s'.byte .ba j = t.byte .bb j) → exec .runB s' = .next t' →
    t.byte .bb 2048 = s.byte .ba 8 ∧ t'.byte .bb 1024 = s.byte .ba 8) ∧
  ∃ s t s' t' : State, exec .runB s = .next t ∧
    (∀ j < 8192, s'.byte .ba j = t.byte .bb j) ∧ exec .runB s' = .next t' ∧
    t'.byte .bb 8 ≠ s.byte .ba 8

/-- R210, R211: the lanes of merge_bits, and that it loses nothing. -/
def Obligations.MergeBitsLanes : Prop :=
  (∀ (a b : Byte) (i : Nat), i < 8 →
    (mergeBits a b).getLsbD (2 * i) = a.getLsbD i ∧
    (mergeBits a b).getLsbD (2 * i + 1) = b.getLsbD i) ∧
  (∀ a b a' b' : Byte, mergeBits a b = mergeBits a' b' → a = a' ∧ b = b') ∧
  mergeBits 0xA5#8 0x3C#8 = 0x4EB1#16

/-- R212, R213, R214: RUN_C puts the merged word of source offset `j` of half `h` at the stated
destination, high byte first. -/
def Obligations.RunCMergesBitplanes : Prop :=
  encode .runC = 0x03#8 ∧
  ∀ s : State, ∃ t, exec .runC s = .next t ∧
    (∀ h < 2, ∀ j < 2048,
      let m := mergeBits (s.byte .bb (h * 4096 + j)) (s.byte .bb (h * 4096 + 2048 + j))
      let d := 4096 * h + 32 * (j % 8) + 2 * (j / 8 % 16) + 256 * (j / 128)
      t.byte .bc d = m.extractLsb' 8 8 ∧ t.byte .bc (d + 1) = m.extractLsb' 0 8) ∧
    completedFrom s t ∧ keptOutside [.bc] s t ∧ environmentKept s t

/-- R215: Stage C's destinations are even, inside their half, and cover every byte of BC exactly once. -/
def Obligations.StageCDestinationsCoverOnce : Prop :=
  (∀ h < 2, ∀ j < 2048,
    dest h j = h * 4096 + 2 * (16 * (j % 8) + j / 8 % 16) + 256 * (j / 128) ∧
    dest h j % 2 = 0 ∧ h * 4096 ≤ dest h j ∧ dest h j ≤ h * 4096 + 4094) ∧
  ∀ d < 8192, ∃ h j, h < 2 ∧ j < 2048 ∧ (d = dest h j ∨ d = dest h j + 1) ∧
    ∀ h' < 2, ∀ j' < 2048, (d = dest h' j' ∨ d = dest h' j' + 1) → h' = h ∧ j' = j

/-- R193, R216: RUN_B and then RUN_C put pixel row `y` of the image BA holds on scanline `y` of BC. -/
def Obligations.RunBAndRunCLayOutTheRaster : Prop :=
  ∀ s u t : State, exec .runB s = .next u → exec .runC u = .next t →
    ∀ x < 128, ∀ y < 256, rasterPixel2 (t.byte .bc) x y = pix (s.byte .ba) x y

/-- R240, R241: the four lanes of expand, their nibbles, and that it loses nothing. -/
def Obligations.ExpandLanes : Prop :=
  ∀ x : Byte,
    expandHi x = 0#2 ++ x.extractLsb' 6 2 ++ 0#2 ++ x.extractLsb' 4 2 ∧
    expandLo x = 0#2 ++ x.extractLsb' 2 2 ++ 0#2 ++ x.extractLsb' 0 2 ∧
    expandHi x &&& 0xCC#8 = 0#8 ∧ expandLo x &&& 0xCC#8 = 0#8 ∧
    x = (expandHi x).extractLsb' 4 2 ++ (expandHi x).extractLsb' 0 2 ++
      (expandLo x).extractLsb' 4 2 ++ (expandLo x).extractLsb' 0 2

/-- R242: RUN_D, two bytes of OUT for each byte of BC by the source's formula. -/
def Obligations.RunDExpandsPixels : Prop :=
  encode .runD = 0x04#8 ∧
  ∀ s : State, ∃ t, exec .runD s = .next t ∧
    (∀ i < 8192,
      t.byte .out (2 * i) =
        ((s.byte .bc i >>> 6 &&& 3#8) <<< 4) ||| (s.byte .bc i >>> 4 &&& 3#8) ∧
      t.byte .out (2 * i + 1) =
        ((s.byte .bc i >>> 2 &&& 3#8) <<< 4) ||| (s.byte .bc i &&& 3#8)) ∧
    completedFrom s t ∧ keptOutside [.out] s t ∧ environmentKept s t

/-- R243: RUN_D keeps the raster: each 4-bit pixel of OUT is the 2-bit pixel of BC, zero-extended. -/
def Obligations.RunDKeepsTheRaster : Prop :=
  ∀ s t : State, exec .runD s = .next t → ∀ x < 128, ∀ y < 256,
    rasterNibble4 (t.byte .out) x y = (rasterPixel2 (s.byte .bc) x y).zeroExtend 4

/-- R260: RUN_ALL runs the four stages in order, each on what the previous one wrote, and leaves every
buffer as RUN_A, RUN_B, RUN_C and RUN_D one after another leave it. -/
def Obligations.RunAllRunsTheFourStages : Prop :=
  encode .runAll = 0x05#8 ∧
  ∀ s : State, ∃ t, exec .runAll s = .next t ∧
    (∀ j < 8192, t.byte .ba j =
      s.byte .inp ((31 - j / 256) * 256 + j % 256 / 8 * 8 + (7 - j % 8))) ∧
    (∀ j < 8192, t.byte .bb j =
      t.byte .ba (j / 4096 * 4096 + 8 * (2 * (j % 2048 / 8) + j % 4096 / 2048) + j % 8)) ∧
    (∀ h < 2, ∀ j < 2048,
      let m := mergeBits (t.byte .bb (h * 4096 + j)) (t.byte .bb (h * 4096 + 2048 + j))
      let d := 4096 * h + 32 * (j % 8) + 2 * (j / 8 % 16) + 256 * (j / 128)
      t.byte .bc d = m.extractLsb' 8 8 ∧ t.byte .bc (d + 1) = m.extractLsb' 0 8) ∧
    (∀ i < 8192, t.byte .out (2 * i) = expandHi (t.byte .bc i) ∧
      t.byte .out (2 * i + 1) = expandLo (t.byte .bc i)) ∧
    completedFrom s t ∧ keptOutside [.ba, .bb, .bc, .out] s t ∧ environmentKept s t ∧
    ∃ a b c d, exec .runA s = .next a ∧ exec .runB a = .next b ∧ exec .runC b = .next c ∧
      exec .runD c = .next d ∧ ∀ X i, t.byte X i = d.byte X i

/-- R261: the end-to-end closed form, after RUN_ALL and after the four commands in order. That `x`
counts from the left rests on the spec's own general-knowledge note (93 G1); the byte mapping does
not. -/
def Obligations.PipelineClosedForm : Prop :=
  ∀ s : State, ∃ a b c d t, exec .runA s = .next a ∧ exec .runB a = .next b ∧
    exec .runC b = .next c ∧ exec .runD c = .next d ∧ exec .runAll s = .next t ∧
    ∀ x < 128, ∀ y < 256,
      let base := 4096 * (y / 128) + 16 * (16 * (y % 128 / 8) + x / 8)
      let k := 7 - x % 8
      let p : BitVec 2 := (s.byte .inp (base + 8 + y % 8)).extractLsb' k 1 ++
        (s.byte .inp (base + y % 8)).extractLsb' k 1
      let o := 64 * (255 - y) + x / 2
      let lo := if x % 2 = 0 then 4 else 0
      (t.byte .out o).extractLsb' lo 4 = p.zeroExtend 4 ∧
      (d.byte .out o).extractLsb' lo 4 = p.zeroExtend 4

/-- R241, R262: after RUN_D or RUN_ALL both nibbles of every OUT byte are at most 3. -/
def Obligations.OutputPixelsAreInRange : Prop :=
  ∀ (c : Instr) (s t : State), c = .runD ∨ c = .runAll → exec c s = .next t →
    Config.LOUT = 2 * Config.L ∧
    ∀ k < 16384, ((t.byte .out k).extractLsb' 4 4).toNat ≤ 3 ∧
      ((t.byte .out k).extractLsb' 0 4).toNat ≤ 3 ∧ t.byte .out k &&& 0xCC#8 = 0#8

/-- R264: distinct IN frames give distinct OUT buffers. -/
def Obligations.RunAllIsInjective : Prop :=
  ∀ s s' t t' : State, exec .runAll s = .next t → exec .runAll s' = .next t' →
    (∀ k < 16384, t.byte .out k = t'.byte .out k) →
    ∀ i < 8192, s.byte .inp i = s'.byte .inp i

/-! ### Reset -/

/-- R47, R33: power-on reset. Each buffer byte is its free draw, whatever that is. -/
def Obligations.PowerOnValues : Prop :=
  State.reset.eng = .idle ∧
  memRead 0xC000#16 State.reset = (0x00#8, State.reset) ∧
  memRead 0xC001#16 State.reset = (0x00#8, State.reset) ∧
  memRead 0xC002#16 State.reset = (0x00#8, State.reset) ∧
  memRead 0xC003#16 State.reset = (0x10#8, State.reset) ∧
  ∀ X i, State.reset.byte X i = Config.powerOnByte X i

/-- R320: reset clears ENG, STATUS and ERRCODE in every state, and takes the turn. The host's script,
position and temporaries are kept, which is the model's choice (log entry 7). -/
def Obligations.ResetClearsTheBlock : Prop :=
  ∀ s : State, nextTurn s = .reset → ∃ t, step s = .next t ∧ t.eng = .idle ∧ t.busy = false ∧
    t.done = false ∧ t.err = false ∧ t.errCode = .noError ∧ t.script = s.script ∧
    t.hostPc = s.hostPc ∧ t.temps = s.temps

/-- R322: reset while idle changes no buffer byte. -/
def Obligations.IdleResetKeepsBuffers : Prop :=
  ∀ s : State, nextTurn s = .reset → s.eng = .idle →
    ∃ t, step s = .next t ∧ ∀ X i, t.byte X i = s.byte X i

/-- R321: reset while a command runs leaves each destination byte a free draw of its own interruption,
whatever it is, and every other buffer unchanged; the command never completes (DONE stays 0). -/
def Obligations.InterruptedDestinationsAreDraws : Prop :=
  ∀ (s : State) (c : Instr), nextTurn s = .reset → s.eng = .running c →
    ∃ t, step s = .next t ∧ t.eng = .idle ∧ t.done = false ∧ t.draws = s.draws + 1 ∧
      (∀ X ∈ destsOf c, ∀ i < Config.bufLen X,
        t.byte X i = Config.interruptedByte s.draws X i) ∧
      (∀ X, X ∉ destsOf c → ∀ i, t.byte X i = s.byte X i) ∧
      sourceOf c ∉ destsOf c

/-! ### Host scripts -/

/-- R125: what each statement does on the host's turn. -/
def Obligations.HostStatementsAct : Prop :=
  ∀ s : State, nextTurn s = .host →
    (∀ a v, s.script[s.hostPc]? = some (.write a v) →
      step s = .next { memWrite a v (dropTurn s) with hostPc := s.hostPc + 1 }) ∧
    (∀ a x, s.script[s.hostPc]? = some (.read a x) → ∃ t, step s = .next t ∧
      t.temp x = (memRead a s).1 ∧ (∀ y, y ≠ x → t.temp y = s.temp y) ∧
      t = { (memRead a (dropTurn s)).2 with temps := t.temps, hostPc := s.hostPc + 1 }) ∧
    (∀ l, s.script[s.hostPc]? = some (.label l) →
      step s = .next { dropTurn s with hostPc := s.hostPc + 1 }) ∧
    (∀ x mask l k, s.script[s.hostPc]? = some (.jz x mask l) →
      (s.temp x &&& mask = 0#8 → labelAt l s.script = some k →
        step s = .next { dropTurn s with hostPc := k }) ∧
      (s.temp x &&& mask ≠ 0#8 →
        step s = .next { dropTurn s with hostPc := s.hostPc + 1 })) ∧
    (∀ x mask l k, s.script[s.hostPc]? = some (.jnz x mask l) →
      (s.temp x &&& mask ≠ 0#8 → labelAt l s.script = some k →
        step s = .next { dropTurn s with hostPc := k }) ∧
      (s.temp x &&& mask = 0#8 →
        step s = .next { dropTurn s with hostPc := s.hostPc + 1 })) ∧
    (s.script[s.hostPc]? = some .halt → step s = .next (dropTurn s))

/-- R125: a label's position holds that label, and a label of the script has a position. -/
def Obligations.LabelsNameTheirPlace : Prop :=
  (∀ (l : Label) (script : List Stmt) (k : Nat), labelAt l script = some k →
    script[k]? = some (.label l)) ∧
  ∀ (l : Label) (script : List Stmt), l ∈ scriptLabels script → ∃ k, labelAt l script = some k

/-- R126: the expansions of the pseudo-statements, each polling loop with a label of its own that no
writer can name; and R125's `X+i`: the base of `X` (R71) plus `i` wherever that is a 16-bit address. -/
def Obligations.PseudoStatementsExpand : Prop :=
  (∀ k st, expandStmt k (.plain st) = [st]) ∧
  (∀ k c, expandStmt k (.cmd c) = [.write 0xC000#16 (encode c)]) ∧
  (∃ fresh : Nat → Label, (∀ j k, fresh j = fresh k → j = k) ∧ (∀ j k, fresh j ≠ .named k) ∧
    ∀ k, (∃ t, expandStmt k .waitDone =
        [.label (fresh k), .read 0xC001#16 t, .jz t 0x02#8 (fresh k)]) ∧
      ∃ t, expandStmt k .waitIdle =
        [.label (fresh k), .read 0xC001#16 t, .jnz t 0x01#8 (fresh k)]) ∧
  (∀ k, expandStmt k .clear = [.write 0xC001#16 0x06#8]) ∧
  (∀ k X i count v, (expandStmt k (.fill X i count v)).length = count ∧
    ∀ m < count, (expandStmt k (.fill X i count v))[m]? = some (Stmt.write (bufAddr X (i + m)) v)) ∧
  (∀ k X i vs, (expandStmt k (.load X i vs)).length = vs.length ∧
    ∀ m v, vs[m]? = some v →
      (expandStmt k (.load X i vs))[m]? = some (Stmt.write (bufAddr X (i + m)) v)) ∧
  (∀ src, expandScript src = (src.mapIdx expandStmt).flatten) ∧
  (∀ i < 0x10000, (bufAddr .inp i).toNat = i) ∧
  (∀ i < 0xE000, (bufAddr .ba i).toNat = 0x2000 + i) ∧
  (∀ i < 0xC000, (bufAddr .bb i).toNat = 0x4000 + i) ∧
  (∀ i < 0xA000, (bufAddr .bc i).toNat = 0x6000 + i) ∧
  (∀ i < 0x8000, (bufAddr .out i).toNat = 0x8000 + i) ∧
  ∀ X i, i < Config.bufLen X → target (bufAddr X i) = .buffer X i

/-- R125, R126: the expansion of a well-formed source script is a well-formed script: its fresh labels
meet neither each other nor the writer's. -/
def Obligations.ExpandedScriptsAreWellFormed : Prop :=
  ∀ src : List SrcStmt, srcWellFormed src = true → scriptWellFormed (expandScript src) = true

/-- R330: a WAITDONE loop issued after an accepted command (BUSY 1, DONE 0, R151) ends, with DONE = 1 and the sequencer idle,
whatever turns are listed, if no reset is among them. -/
def Obligations.WaitDoneEndsAfterAcceptance : Prop :=
  ∀ (s : State) (c : Instr) (p : Nat) (x : Temp) (l : Label),
    s.eng = .running c → s.busy = true → s.done = false → .reset ∉ s.turns → s.hostPc = p →
    s.script[p]? = some (.label l) → s.script[p + 1]? = some (.read 0xC001#16 x) →
    s.script[p + 2]? = some (.jz x 0x02#8 l) → labelAt l s.script = some p →
    ∃ k t, Host.Core.run core k s = .next t ∧ t.hostPc = p + 3 ∧ t.done = true ∧ t.eng = .idle

/-- R126, R330: a WAITDONE loop issued with no command accepted and DONE = 0 never ends, whatever turns
are listed; the block itself does not hang: every step answers a next state. -/
def Obligations.WaitDoneWithoutACommandNeverEnds : Prop :=
  ∀ (s : State) (p : Nat) (x : Temp) (l : Label),
    s.eng = .idle → s.done = false → s.hostPc = p →
    s.script[p]? = some (.label l) → s.script[p + 1]? = some (.read 0xC001#16 x) →
    s.script[p + 2]? = some (.jz x 0x02#8 l) → labelAt l s.script = some p →
    ∀ k, ∃ t, Host.Core.run core k s = .next t ∧ p ≤ t.hostPc ∧ t.hostPc ≤ p + 2

/-- R280: the block has no traps. A step answers a next state in every state whose script is well
formed, and keeps the script; nothing is ever refused. -/
def Obligations.NoStepTraps : Prop :=
  (∀ s : State, scriptWellFormed s.script = true →
    ∃ t, step s = .next t ∧ t.script = s.script) ∧
  ∀ (s : State) (r : Refusal), step s ≠ .refused r

/-- The one stop of the model (log entry 9): a jump taken to a label the script does not hold. -/
def Obligations.OnlyAMissingLabelFaults : Prop :=
  ∀ (s : State) (f : Fault), step s = .fault f →
    nextTurn s = .host ∧ ∃ x mask l, f = .noSuchLabel l ∧ labelAt l s.script = none ∧
      ((s.script[s.hostPc]? = some (.jz x mask l) ∧ s.temp x &&& mask = 0#8) ∨
        (s.script[s.hostPc]? = some (.jnz x mask l) ∧ s.temp x &&& mask ≠ 0#8))

/-! ### The whole machine -/

/-- R36, R37, R40: BUSY = 1 exactly while ENG is not Idle, DONE and BUSY never hold together, ERRCODE is
0 exactly when ERR is 0, and memory keeps its canonical form: every step keeps all of it. -/
def Obligations.StepKeepsTheInvariant : Prop :=
  ∀ s t : State, s.inv = true → step s = .next t → t.inv = true

/-- The invariant holds after reset. -/
def Obligations.ResetMeetsTheInvariant : Prop := State.reset.inv = true

/-- R32, R33: a buffer byte changes only by a host write to it while not busy, by the completion of a
command that has the buffer as destination, or by a reset that interrupts such a command. -/
def Obligations.BufferByteChangesOnlyAsListed : Prop :=
  ∀ (s t : State) (X : Buf) (i : Nat), step s = .next t → t.byte X i ≠ s.byte X i →
    (nextTurn s = .host ∧ s.busy = false ∧ ∃ a v, s.script[s.hostPc]? = some (.write a v) ∧
      target a = .buffer X i ∧ t.byte X i = v) ∨
    (nextTurn s = .engine ∧ ∃ c, s.eng = .running c ∧ X ∈ destsOf c) ∨
    (nextTurn s = .reset ∧ ∃ c, s.eng = .running c ∧ X ∈ destsOf c)

/-- R281, R284, R290: ERR and ERRCODE change only by reset, by the host's acknowledgement, or by one of
the three error events, each with its own code. -/
def Obligations.ErrorStateChangesOnlyAsListed : Prop :=
  ∀ s t : State, step s = .next t →
    (t.err = s.err ∧ t.errCode = s.errCode) ∨
    (nextTurn s = .reset ∧ t.err = false ∧ t.errCode = .noError) ∨
    (nextTurn s = .host ∧ ∃ st : Stmt, s.script[s.hostPc]? = some st ∧
      ((∃ v, st = .write 0xC001#16 v ∧ v.getLsbD 2 = true ∧ t.err = false ∧
          t.errCode = .noError) ∨
        (∃ v, st = .write 0xC000#16 v ∧ s.busy = false ∧ (∀ c, v ≠ encode c) ∧
          t.err = true ∧ t.errCode = .illegalCmd) ∨
        (∃ v, st = .write 0xC000#16 v ∧ s.busy = true ∧ t.err = true ∧
          t.errCode = .cmdWhileBusy) ∨
        (∃ a : Addr, a.toNat < 0xC000 ∧ s.busy = true ∧
          ((∃ v, st = .write a v) ∨ ∃ x, st = .read a x) ∧
          t.err = true ∧ t.errCode = .accessWhileBusy)))

/-- R40, R46, R152: ENG changes only by acceptance of a CMD write while not busy, by completion, or by
reset. -/
def Obligations.SequencerChangesOnlyAsListed : Prop :=
  ∀ s t : State, step s = .next t → t.eng ≠ s.eng →
    (nextTurn s = .host ∧ s.busy = false ∧
      ∃ c, s.script[s.hostPc]? = some (.write 0xC000#16 (encode c)) ∧ t.eng = .running c) ∨
    (nextTurn s = .engine ∧ (∃ c, s.eng = .running c) ∧ t.eng = .idle) ∨
    (nextTurn s = .reset ∧ t.eng = .idle)

/-- R36, R326: DONE is set by completion alone; a command's acceptance clears it. -/
def Obligations.DoneRisesOnlyAtCompletion : Prop :=
  (∀ s t : State, step s = .next t → s.done = false → t.done = true →
    nextTurn s = .engine ∧ (∃ c, s.eng = .running c) ∧ t.eng = .idle ∧ t.busy = false) ∧
  ∀ s t : State, step s = .next t → (∃ c, t.eng = .running c ∧ s.eng = .idle) → t.done = false

/-- R36, R151, R155, R320, R326: DONE over every step. Completion sets it; reset, a STATUS write with
bit 1 set, and the acceptance of a command clear it; every other step leaves it as it was. -/
def Obligations.DoneFollowsItsEvents : Prop :=
  ∀ s t : State, step s = .next t →
    let completes := nextTurn s = .engine ∧ ∃ c, s.eng = .running c
    let clears := nextTurn s = .reset ∨ (nextTurn s = .host ∧
      ((∃ v, s.script[s.hostPc]? = some (.write 0xC001#16 v) ∧ v.getLsbD 1 = true) ∨
        (s.busy = false ∧ ∃ c, s.script[s.hostPc]? = some (.write 0xC000#16 (encode c)))))
    (completes → t.done = true) ∧ (clears → t.done = false) ∧
      (¬completes → ¬clears → t.done = s.done)

/-- R85: while a command runs, the host's turn neither changes the buffers nor depends on them. -/
def Obligations.RunningCommandIsUnobservable : Prop :=
  ∀ (s t : State) (m : Memory), s.busy = true → nextTurn s = .host → step s = .next t →
    t.mem = s.mem ∧ step { s with mem := m } = .next { t with mem := m }

/-- R287, 95 P4: a command written around a completion. Before it, the write is discarded with
CMD_WHILE_BUSY; after it, the command is accepted. Both orders are runs of the model, and both leave
the completed command's bytes. -/
def Obligations.CommandWriteRacesCompletion : Prop :=
  ∀ (s : State) (c c' : Instr), s.eng = .running c → s.busy = true →
    s.script[s.hostPc]? = some (.write 0xC000#16 (encode c')) →
    ∃ u t t', exec c s = .next u ∧
      Host.Core.run core 2 { s with turns := [.host, .engine] } = .next t ∧
      Host.Core.run core 2 { s with turns := [.engine, .host] } = .next t' ∧
      t.eng = .idle ∧ t.busy = false ∧ t.done = true ∧ t.err = true ∧
      t.errCode = .cmdWhileBusy ∧
      t'.eng = .running c' ∧ t'.busy = true ∧ t'.done = false ∧ t'.err = s.err ∧
      t'.errCode = s.errCode ∧
      ∀ X i, t.byte X i = u.byte X i ∧ t'.byte X i = u.byte X i

/-- R287, 95 P5: a buffer read around a completion. Before it, the read returns 0x00 with
ACCESS_WHILE_BUSY; after it, it returns the byte the command left. -/
def Obligations.BufferReadRacesCompletion : Prop :=
  ∀ (s : State) (c : Instr) (a : Addr) (X : Buf) (i : Nat) (x : Temp),
    s.eng = .running c → s.busy = true → target a = .buffer X i →
    s.script[s.hostPc]? = some (.read a x) →
    ∃ u t t', exec c s = .next u ∧
      Host.Core.run core 2 { s with turns := [.host, .engine] } = .next t ∧
      Host.Core.run core 2 { s with turns := [.engine, .host] } = .next t' ∧
      t.temp x = 0x00#8 ∧ t.done = true ∧ t.err = true ∧ t.errCode = .accessWhileBusy ∧
      t'.temp x = u.byte X i ∧ t'.done = true ∧ t'.err = s.err ∧ t'.errCode = s.errCode ∧
      ∀ Y j, t.byte Y j = u.byte Y j ∧ t'.byte Y j = u.byte Y j

/-- R154, R155, R330: an accepted command completes. Whatever turns are listed, if no reset is among
them, then within one step more than their number the command has completed, with the bytes it would
have written at once. -/
def Obligations.AcceptedCommandCompletes : Prop :=
  ∀ (s : State) (c : Instr), s.eng = .running c → s.busy = true →
    scriptWellFormed s.script = true → .reset ∉ s.turns →
    ∃ k t u, k ≤ s.turns.length + 1 ∧ Host.Core.run core k s = .next t ∧ exec c s = .next u ∧
      t.eng = .idle ∧ t.busy = false ∧ t.done = true ∧ ∀ X i, t.byte X i = u.byte X i

/-- R90, R324: a host that keeps the duty of not touching buffers or CMD while busy is never refused for
being too early. -/
def Obligations.DutifulHostIsNeverTooEarly : Prop :=
  ∀ (s t : State) (st : Stmt), nextTurn s = .host → s.script[s.hostPc]? = some st →
    dutiful s st = true → step s = .next t →
    (t.errCode = .cmdWhileBusy ∨ t.errCode = .accessWhileBusy) → t.errCode = s.errCode
end

