-- ==== Sys2Proof/Laws/Cells.lean ====
section
/-! SUPPORT. The laws of one buffer's cells: reading after writing, reading a filled buffer, and that
every operation keeps the canonical form. -/

namespace Sys2Proof.Machine

@[simp] theorem cellsGet_nil (i : Nat) : cellsGet [] i = none := rfl

theorem cellsGet_cons (k : Nat) (w : Byte) (r : Cells) (i : Nat) :
    cellsGet ((k, w) :: r) i = if k = i then some w else cellsGet r i := rfl

theorem cellsSet_cons (k : Nat) (w : Byte) (r : Cells) (i : Nat) (v : Byte) :
    cellsSet ((k, w) :: r) i v =
      if i < k then (i, v) :: (k, w) :: r
      else if i = k then (i, v) :: r
      else (k, w) :: cellsSet r i v := rfl

theorem cellsGet_set (cs : Cells) (i j : Nat) (v : Byte) :
    cellsGet (cellsSet cs i v) j = if i = j then some v else cellsGet cs j := by
  induction cs with
  | nil => simp [cellsSet, cellsGet]
  | cons c r ih =>
    obtain ⟨k, w⟩ := c
    rw [cellsSet_cons]
    split
    · rw [cellsGet_cons]
    · split
      · subst_vars
        simp only [cellsGet_cons]
        split <;> rfl
      · simp only [cellsGet_cons, ih]
        split <;> split <;> first | rfl | omega

theorem cellsGet_set_same (cs : Cells) (i : Nat) (v : Byte) :
    cellsGet (cellsSet cs i v) i = some v := by
  rw [cellsGet_set, if_pos rfl]

theorem cellsGet_set_other (cs : Cells) {i j : Nat} (v : Byte) (h : i ≠ j) :
    cellsGet (cellsSet cs i v) j = cellsGet cs j := by
  rw [cellsGet_set, if_neg h]

/-- Lookup in cells listed for each index of a list. -/
theorem cellsGet_map (is : List Nat) (f : Nat → Byte) (j : Nat) :
    cellsGet (is.map fun i => (i, f i)) j = if j ∈ is then some (f j) else none := by
  induction is with
  | nil => simp
  | cons i r ih =>
    simp only [List.map_cons, cellsGet_cons, ih, List.mem_cons]
    by_cases h : i = j
    · subst h; simp
    · rw [if_neg h]
      simp [Ne.symm h]

theorem cellsGet_fill (len : Nat) (f : Nat → Byte) (j : Nat) :
    cellsGet (cellsFill len f) j = if j < len then some (f j) else none := by
  simp [cellsFill, cellsGet_map]

theorem cellsRiseFrom_mono {lo lo' : Nat} (h : lo' ≤ lo) :
    ∀ {cs : Cells}, cellsRiseFrom lo cs = true → cellsRiseFrom lo' cs = true
  | [], _ => rfl
  | (k, w) :: r, hr => by
    simp only [cellsRiseFrom, Bool.and_eq_true, decide_eq_true_eq] at hr ⊢
    exact ⟨by omega, hr.2⟩

theorem cellsRiseFrom_set {cs : Cells} {lo i : Nat} (v : Byte) (hi : lo ≤ i)
    (h : cellsRiseFrom lo cs = true) : cellsRiseFrom lo (cellsSet cs i v) = true := by
  induction cs generalizing lo with
  | nil => simp [cellsSet, cellsRiseFrom, hi]
  | cons c r ih =>
    obtain ⟨k, w⟩ := c
    simp only [cellsRiseFrom, Bool.and_eq_true, decide_eq_true_eq] at h
    rw [cellsSet_cons]
    split
    · simp [cellsRiseFrom, hi, h.2]; omega
    · split
      · subst_vars; simp [cellsRiseFrom, h.1, h.2]
      · simp only [cellsRiseFrom, Bool.and_eq_true, decide_eq_true_eq]
        exact ⟨h.1, ih (by omega) h.2⟩

theorem cellsSet_bound {cs : Cells} {len i : Nat} (v : Byte) (hi : i < len)
    (h : cs.all (fun c => decide (c.1 < len)) = true) :
    (cellsSet cs i v).all (fun c => decide (c.1 < len)) = true := by
  induction cs with
  | nil => simp [cellsSet, hi]
  | cons c r ih =>
    obtain ⟨k, w⟩ := c
    simp only [List.all_cons, Bool.and_eq_true, decide_eq_true_eq] at h
    rw [cellsSet_cons]
    split
    · simp only [List.all_cons, Bool.and_eq_true, decide_eq_true_eq]
      exact ⟨hi, h.1, h.2⟩
    · split
      · simp only [List.all_cons, Bool.and_eq_true, decide_eq_true_eq]
        exact ⟨hi, h.2⟩
      · simp only [List.all_cons, Bool.and_eq_true, decide_eq_true_eq]
        exact ⟨h.1, ih h.2⟩

/-- A write inside a buffer keeps the canonical form. -/
theorem cellsWf_set {cs : Cells} {len i : Nat} (v : Byte) (hi : i < len)
    (h : cellsWf len cs = true) : cellsWf len (cellsSet cs i v) = true := by
  simp only [cellsWf, Bool.and_eq_true] at h ⊢
  exact ⟨cellsRiseFrom_set v (Nat.zero_le i) h.1, cellsSet_bound v hi h.2⟩

theorem cellsRiseFrom_range' (f : Nat → Byte) :
    ∀ (m lo : Nat), cellsRiseFrom lo ((List.range' lo m).map fun i => (i, f i)) = true
  | 0, _ => rfl
  | m + 1, lo => by
    simp [List.range'_succ, cellsRiseFrom, cellsRiseFrom_range' f m (lo + 1)]

/-- A filled buffer is in canonical form. -/
theorem cellsWf_fill (len : Nat) (f : Nat → Byte) : cellsWf len (cellsFill len f) = true := by
  simp only [cellsWf, cellsFill, Bool.and_eq_true]
  refine ⟨?_, ?_⟩
  · rw [List.range_eq_range']
    exact cellsRiseFrom_range' f len 0
  · simp

end Sys2Proof.Machine
end

