-- ==== Sys2Proof/Laws/State.lean ====
section
/-! SUPPORT. What each update of the state leaves in each field: one lemma per field per update, true by
unfolding the update once, so that no later proof unfolds a record update. -/

namespace Sys2Proof.Machine

variable (s : State)


@[simp] theorem State.setByte_eng (X : Buf) (i : Nat) (v : Byte) :
    (s.setByte X i v).eng = s.eng := rfl
@[simp] theorem State.setByte_busy (X : Buf) (i : Nat) (v : Byte) :
    (s.setByte X i v).busy = s.busy := rfl
@[simp] theorem State.setByte_done (X : Buf) (i : Nat) (v : Byte) :
    (s.setByte X i v).done = s.done := rfl
@[simp] theorem State.setByte_err (X : Buf) (i : Nat) (v : Byte) :
    (s.setByte X i v).err = s.err := rfl
@[simp] theorem State.setByte_errCode (X : Buf) (i : Nat) (v : Byte) :
    (s.setByte X i v).errCode = s.errCode := rfl
@[simp] theorem State.setByte_mem (X : Buf) (i : Nat) (v : Byte) :
    (s.setByte X i v).mem = s.mem.setCells X (cellsSet (s.mem.cells X) i v) := rfl
@[simp] theorem State.setByte_script (X : Buf) (i : Nat) (v : Byte) :
    (s.setByte X i v).script = s.script := rfl
@[simp] theorem State.setByte_hostPc (X : Buf) (i : Nat) (v : Byte) :
    (s.setByte X i v).hostPc = s.hostPc := rfl
@[simp] theorem State.setByte_temps (X : Buf) (i : Nat) (v : Byte) :
    (s.setByte X i v).temps = s.temps := rfl
@[simp] theorem State.setByte_turns (X : Buf) (i : Nat) (v : Byte) :
    (s.setByte X i v).turns = s.turns := rfl
@[simp] theorem State.setByte_draws (X : Buf) (i : Nat) (v : Byte) :
    (s.setByte X i v).draws = s.draws := rfl

@[simp] theorem State.fillBuf_eng (X : Buf) (f : Nat → Byte) : (s.fillBuf X f).eng = s.eng := rfl
@[simp] theorem State.fillBuf_busy (X : Buf) (f : Nat → Byte) : (s.fillBuf X f).busy = s.busy := rfl
@[simp] theorem State.fillBuf_done (X : Buf) (f : Nat → Byte) : (s.fillBuf X f).done = s.done := rfl
@[simp] theorem State.fillBuf_err (X : Buf) (f : Nat → Byte) : (s.fillBuf X f).err = s.err := rfl
@[simp] theorem State.fillBuf_errCode (X : Buf) (f : Nat → Byte) :
    (s.fillBuf X f).errCode = s.errCode := rfl
@[simp] theorem State.fillBuf_mem (X : Buf) (f : Nat → Byte) :
    (s.fillBuf X f).mem = s.mem.setCells X (cellsFill (Config.bufLen X) f) := rfl
@[simp] theorem State.fillBuf_script (X : Buf) (f : Nat → Byte) :
    (s.fillBuf X f).script = s.script := rfl
@[simp] theorem State.fillBuf_hostPc (X : Buf) (f : Nat → Byte) :
    (s.fillBuf X f).hostPc = s.hostPc := rfl
@[simp] theorem State.fillBuf_temps (X : Buf) (f : Nat → Byte) :
    (s.fillBuf X f).temps = s.temps := rfl
@[simp] theorem State.fillBuf_turns (X : Buf) (f : Nat → Byte) :
    (s.fillBuf X f).turns = s.turns := rfl
@[simp] theorem State.fillBuf_draws (X : Buf) (f : Nat → Byte) :
    (s.fillBuf X f).draws = s.draws := rfl

@[simp] theorem State.setTemp_eng (t : Temp) (v : Byte) : (s.setTemp t v).eng = s.eng := rfl
@[simp] theorem State.setTemp_busy (t : Temp) (v : Byte) : (s.setTemp t v).busy = s.busy := rfl
@[simp] theorem State.setTemp_done (t : Temp) (v : Byte) : (s.setTemp t v).done = s.done := rfl
@[simp] theorem State.setTemp_err (t : Temp) (v : Byte) : (s.setTemp t v).err = s.err := rfl
@[simp] theorem State.setTemp_errCode (t : Temp) (v : Byte) :
    (s.setTemp t v).errCode = s.errCode := rfl
@[simp] theorem State.setTemp_mem (t : Temp) (v : Byte) : (s.setTemp t v).mem = s.mem := rfl
@[simp] theorem State.setTemp_script (t : Temp) (v : Byte) :
    (s.setTemp t v).script = s.script := rfl
@[simp] theorem State.setTemp_hostPc (t : Temp) (v : Byte) :
    (s.setTemp t v).hostPc = s.hostPc := rfl
@[simp] theorem State.setTemp_temps (t : Temp) (v : Byte) :
    (s.setTemp t v).temps = cellsSet s.temps t v := rfl
@[simp] theorem State.setTemp_turns (t : Temp) (v : Byte) : (s.setTemp t v).turns = s.turns := rfl
@[simp] theorem State.setTemp_draws (t : Temp) (v : Byte) : (s.setTemp t v).draws = s.draws := rfl

@[simp] theorem raiseError_eng (c : ErrCode) : (raiseError c s).eng = s.eng := rfl
@[simp] theorem raiseError_busy (c : ErrCode) : (raiseError c s).busy = s.busy := rfl
@[simp] theorem raiseError_done (c : ErrCode) : (raiseError c s).done = s.done := rfl
@[simp] theorem raiseError_err (c : ErrCode) : (raiseError c s).err = true := rfl
@[simp] theorem raiseError_errCode (c : ErrCode) : (raiseError c s).errCode = c := rfl
@[simp] theorem raiseError_mem (c : ErrCode) : (raiseError c s).mem = s.mem := rfl
@[simp] theorem raiseError_script (c : ErrCode) : (raiseError c s).script = s.script := rfl
@[simp] theorem raiseError_hostPc (c : ErrCode) : (raiseError c s).hostPc = s.hostPc := rfl
@[simp] theorem raiseError_temps (c : ErrCode) : (raiseError c s).temps = s.temps := rfl
@[simp] theorem raiseError_turns (c : ErrCode) : (raiseError c s).turns = s.turns := rfl
@[simp] theorem raiseError_draws (c : ErrCode) : (raiseError c s).draws = s.draws := rfl

@[simp] theorem clearError_eng : (clearError s).eng = s.eng := rfl
@[simp] theorem clearError_busy : (clearError s).busy = s.busy := rfl
@[simp] theorem clearError_done : (clearError s).done = s.done := rfl
@[simp] theorem clearError_err : (clearError s).err = false := rfl
@[simp] theorem clearError_errCode : (clearError s).errCode = .noError := rfl
@[simp] theorem clearError_mem : (clearError s).mem = s.mem := rfl
@[simp] theorem clearError_script : (clearError s).script = s.script := rfl
@[simp] theorem clearError_hostPc : (clearError s).hostPc = s.hostPc := rfl
@[simp] theorem clearError_temps : (clearError s).temps = s.temps := rfl
@[simp] theorem clearError_turns : (clearError s).turns = s.turns := rfl
@[simp] theorem clearError_draws : (clearError s).draws = s.draws := rfl

@[simp] theorem accept_eng (c : Instr) : (accept c s).eng = .running c := rfl
@[simp] theorem accept_busy (c : Instr) : (accept c s).busy = true := rfl
@[simp] theorem accept_done (c : Instr) : (accept c s).done = false := rfl
@[simp] theorem accept_err (c : Instr) : (accept c s).err = s.err := rfl
@[simp] theorem accept_errCode (c : Instr) : (accept c s).errCode = s.errCode := rfl
@[simp] theorem accept_mem (c : Instr) : (accept c s).mem = s.mem := rfl
@[simp] theorem accept_script (c : Instr) : (accept c s).script = s.script := rfl
@[simp] theorem accept_hostPc (c : Instr) : (accept c s).hostPc = s.hostPc := rfl
@[simp] theorem accept_temps (c : Instr) : (accept c s).temps = s.temps := rfl
@[simp] theorem accept_turns (c : Instr) : (accept c s).turns = s.turns := rfl
@[simp] theorem accept_draws (c : Instr) : (accept c s).draws = s.draws := rfl

@[simp] theorem finish_eng : (finish s).eng = .idle := rfl
@[simp] theorem finish_busy : (finish s).busy = false := rfl
@[simp] theorem finish_done : (finish s).done = true := rfl
@[simp] theorem finish_err : (finish s).err = s.err := rfl
@[simp] theorem finish_errCode : (finish s).errCode = s.errCode := rfl
@[simp] theorem finish_mem : (finish s).mem = s.mem := rfl
@[simp] theorem finish_script : (finish s).script = s.script := rfl
@[simp] theorem finish_hostPc : (finish s).hostPc = s.hostPc := rfl
@[simp] theorem finish_temps : (finish s).temps = s.temps := rfl
@[simp] theorem finish_turns : (finish s).turns = s.turns := rfl
@[simp] theorem finish_draws : (finish s).draws = s.draws := rfl

@[simp] theorem resetFlags_eng : (resetFlags s).eng = .idle := rfl
@[simp] theorem resetFlags_busy : (resetFlags s).busy = false := rfl
@[simp] theorem resetFlags_done : (resetFlags s).done = false := rfl
@[simp] theorem resetFlags_err : (resetFlags s).err = false := rfl
@[simp] theorem resetFlags_errCode : (resetFlags s).errCode = .noError := rfl
@[simp] theorem resetFlags_mem : (resetFlags s).mem = s.mem := rfl
@[simp] theorem resetFlags_script : (resetFlags s).script = s.script := rfl
@[simp] theorem resetFlags_hostPc : (resetFlags s).hostPc = s.hostPc := rfl
@[simp] theorem resetFlags_temps : (resetFlags s).temps = s.temps := rfl
@[simp] theorem resetFlags_turns : (resetFlags s).turns = s.turns := rfl
@[simp] theorem resetFlags_draws : (resetFlags s).draws = s.draws := rfl

@[simp] theorem hostNext_eng : (hostNext s).eng = s.eng := rfl
@[simp] theorem hostNext_busy : (hostNext s).busy = s.busy := rfl
@[simp] theorem hostNext_done : (hostNext s).done = s.done := rfl
@[simp] theorem hostNext_err : (hostNext s).err = s.err := rfl
@[simp] theorem hostNext_errCode : (hostNext s).errCode = s.errCode := rfl
@[simp] theorem hostNext_mem : (hostNext s).mem = s.mem := rfl
@[simp] theorem hostNext_script : (hostNext s).script = s.script := rfl
@[simp] theorem hostNext_hostPc : (hostNext s).hostPc = s.hostPc + 1 := rfl
@[simp] theorem hostNext_temps : (hostNext s).temps = s.temps := rfl
@[simp] theorem hostNext_turns : (hostNext s).turns = s.turns := rfl
@[simp] theorem hostNext_draws : (hostNext s).draws = s.draws := rfl

@[simp] theorem dropTurn_eng : (dropTurn s).eng = s.eng := rfl
@[simp] theorem dropTurn_busy : (dropTurn s).busy = s.busy := rfl
@[simp] theorem dropTurn_done : (dropTurn s).done = s.done := rfl
@[simp] theorem dropTurn_err : (dropTurn s).err = s.err := rfl
@[simp] theorem dropTurn_errCode : (dropTurn s).errCode = s.errCode := rfl
@[simp] theorem dropTurn_mem : (dropTurn s).mem = s.mem := rfl
@[simp] theorem dropTurn_script : (dropTurn s).script = s.script := rfl
@[simp] theorem dropTurn_hostPc : (dropTurn s).hostPc = s.hostPc := rfl
@[simp] theorem dropTurn_temps : (dropTurn s).temps = s.temps := rfl
@[simp] theorem dropTurn_turns : (dropTurn s).turns = s.turns.tail := rfl
@[simp] theorem dropTurn_draws : (dropTurn s).draws = s.draws := rfl

end Sys2Proof.Machine
end

