-- ==== Sys2Proof/Laws/Ops.lean ====
section
/-! SUPPORT. What each shared operation can do, said once: a byte after each update, the canonical form,
the port's two transactions, reset's draws. -/

namespace Sys2Proof.Machine

/-! ### Buffers -/

@[simp] theorem cells_setCells_same (m : Memory) (X : Buf) (cs : Cells) :
    (m.setCells X cs).cells X = cs := by cases X <;> rfl

theorem cells_setCells_other (m : Memory) {X Y : Buf} (cs : Cells) (h : Y ≠ X) :
    (m.setCells X cs).cells Y = m.cells Y := by
  cases X <;> cases Y <;> first | rfl | exact absurd rfl h

/-- A byte depends on the memory alone. -/
theorem byte_congr {s t : State} (h : t.mem = s.mem) (X : Buf) (i : Nat) :
    t.byte X i = s.byte X i := by simp only [State.byte, h]

theorem byte_setByte_same (s : State) (X : Buf) (i : Nat) (v : Byte) :
    (s.setByte X i v).byte X i = v := by
  simp [State.byte, cellsGet_set_same]

theorem byte_setByte_other (s : State) {X Y : Buf} {i j : Nat} (v : Byte)
    (h : ¬ (Y = X ∧ j = i)) : (s.setByte X i v).byte Y j = s.byte Y j := by
  by_cases hY : Y = X
  · subst hY
    have hij : i ≠ j := fun e => h ⟨rfl, e.symm⟩
    simp [State.byte, cellsGet_set_other _ _ hij]
  · simp [State.byte, cells_setCells_other _ _ hY]

theorem byte_fillBuf_same (s : State) (X : Buf) (f : Nat → Byte) {i : Nat}
    (h : i < Config.bufLen X) : (s.fillBuf X f).byte X i = f i := by
  simp [State.byte, cellsGet_fill, h]

theorem byte_fillBuf_other (s : State) {X Y : Buf} (f : Nat → Byte) (h : Y ≠ X) (i : Nat) :
    (s.fillBuf X f).byte Y i = s.byte Y i := by
  simp [State.byte, cells_setCells_other _ _ h]

theorem written_fillBuf (s : State) (X : Buf) (f : Nat → Byte) :
    (s.fillBuf X f).written X = true := by
  simp only [State.written, List.all_eq_true, List.mem_range, State.fillBuf_mem,
    cells_setCells_same, cellsGet_fill]
  intro i hi
  simp [hi]

/-! ### The canonical form -/

theorem Memory.wf_iff (m : Memory) :
    m.wf = true ↔ ∀ X, cellsWf (Config.bufLen X) (m.cells X) = true := by
  simp only [Memory.wf, Bool.and_eq_true]
  constructor
  · rintro ⟨⟨⟨⟨h1, h2⟩, h3⟩, h4⟩, h5⟩ X
    cases X <;> assumption
  · intro h
    exact ⟨⟨⟨⟨h .inp, h .ba⟩, h .bb⟩, h .bc⟩, h .out⟩

theorem Memory.wf_setCells {m : Memory} {X : Buf} {cs : Cells} (h : m.wf = true)
    (hc : cellsWf (Config.bufLen X) cs = true) : (m.setCells X cs).wf = true := by
  rw [Memory.wf_iff] at h ⊢
  intro Y
  by_cases hY : Y = X
  · subst hY; simpa using hc
  · rw [cells_setCells_other _ _ hY]; exact h Y

theorem wf_setByte {s : State} {X : Buf} {i : Nat} (v : Byte) (hi : i < Config.bufLen X)
    (h : s.mem.wf = true) : (s.setByte X i v).mem.wf = true :=
  Memory.wf_setCells h (cellsWf_set v hi ((Memory.wf_iff _).mp h X))

theorem wf_fillBuf {s : State} {X : Buf} (f : Nat → Byte) (h : s.mem.wf = true) :
    (s.fillBuf X f).mem.wf = true :=
  Memory.wf_setCells h (cellsWf_fill _ f)

theorem wf_powerOn : Memory.powerOn.wf = true := by decide

theorem wf_reset : State.reset.mem.wf = true := wf_powerOn

/-! ### Sizes -/

theorem Config.L_eq : Config.L = 8192 := rfl
theorem Config.H_eq : Config.H = 4096 := rfl
theorem Config.Q_eq : Config.Q = 2048 := rfl
theorem Config.LOUT_eq : Config.LOUT = 16384 := rfl

/-- A buffer address leads inside its buffer (R71, R72). -/
theorem target_buffer_lt {addr : Addr} {X : Buf} {i : Nat} (h : target addr = .buffer X i) :
    i < Config.bufLen X ∧ addr.toNat = Config.bufBase X + i ∧ addr.toNat < 0xC000 := by
  revert h
  simp only [target]
  repeat' split
  all_goals
    intro h
    first
    | (injection h with hX hi
       subst hX hi
       simp only [Config.bufLen, Config.bufBase, Config.L_eq, Config.LOUT_eq]
       omega)
    | exact Target.noConfusion h

/-! ### The flags -/

theorem writeStatus_eq (v : Byte) (s : State) :
    writeStatus v s =
      { s with
        done := s.done && !v.getLsbD 1
        err := s.err && !v.getLsbD 2
        errCode := if v.getLsbD 2 then .noError else s.errCode } := by
  simp only [writeStatus, clearErrIf, clearDoneIf]
  cases v.getLsbD 1 <;> cases v.getLsbD 2 <;> simp [clearError]

/-! ### Reset -/

/-- The destinations of an interrupted command change the memory alone, and each listed buffer to its
draws. -/
theorem drawBufs_spec (k : Nat) (Xs : List Buf) (s : State) :
    ∃ m, drawBufs k Xs s = { s with mem := m } ∧
      (s.mem.wf = true → m.wf = true) ∧
      (∀ X, X ∉ Xs → m.cells X = s.mem.cells X) ∧
      (∀ X, X ∈ Xs → m.cells X = cellsFill (Config.bufLen X) (Config.interruptedByte k X)) := by
  induction Xs generalizing s with
  | nil => exact ⟨s.mem, rfl, id, fun _ _ => rfl, fun _ h => absurd h (by simp)⟩
  | cons Y r ih =>
    obtain ⟨m, hm, hwf, hout, hin⟩ := ih (s.fillBuf Y (Config.interruptedByte k Y))
    refine ⟨m, hm, fun h => hwf (wf_fillBuf _ h), fun X hX => ?_, fun X hX => ?_⟩
    · have h : X ≠ Y ∧ X ∉ r := by simpa using hX
      rw [hout X h.2, State.fillBuf_mem, cells_setCells_other _ _ h.1]
    · by_cases h : X ∈ r
      · exact hin X h
      · have hY : X = Y := (List.mem_cons.mp hX).resolve_right h
        subst hY
        rw [hout X h]
        simp

/-- Everything reset does: a running command's destinations become draws, and the flags are cleared;
the host agent is not reached (R320, R321, R322). -/
theorem resetBlock_idle {s : State} (h : s.eng = .idle) : resetBlock s = resetFlags s := by
  simp [resetBlock, interruptedIfRunning, h]

theorem resetBlock_running {s : State} {c : Instr} (h : s.eng = .running c) :
    ∃ m, resetBlock s = resetFlags { s with mem := m, draws := s.draws + 1 } ∧
      (s.mem.wf = true → m.wf = true) ∧
      (∀ X, X ∉ destsOf c → m.cells X = s.mem.cells X) ∧
      (∀ X, X ∈ destsOf c →
        m.cells X = cellsFill (Config.bufLen X) (Config.interruptedByte s.draws X)) := by
  obtain ⟨m, hm, hrest⟩ := drawBufs_spec s.draws (destsOf c) s
  refine ⟨m, ?_, hrest⟩
  simp only [resetBlock, interruptedIfRunning, h, interrupted, hm]

/-! ### The port -/

/-- A read changes nothing, or is a buffer read while busy and records ACCESS_WHILE_BUSY (R73, R74,
R76, R78). -/
theorem memRead_state (addr : Addr) (s : State) :
    (memRead addr s).2 = s ∨
      (s.busy = true ∧ addr.toNat < 0xC000 ∧
        memRead addr s = (0x00, raiseError .accessWhileBusy s)) := by
  cases ht : target addr with
  | buffer X i =>
    have hlt := (target_buffer_lt ht).2.2
    cases hb : s.busy with
    | true => exact .inr ⟨rfl, hlt, by simp [memRead, ht, readBuffer, hb]⟩
    | false => exact .inl (by simp [memRead, ht, readBuffer, hb])
  | _ => exact .inl (by simp [memRead, ht])

/-- Everything a write transaction can do (R73, R74, R76, R78, R150). -/
theorem memWrite_cases (addr : Addr) (v : Byte) (s : State) :
    (∃ X i, target addr = .buffer X i ∧ s.busy = false ∧ memWrite addr v s = s.setByte X i v) ∨
    (addr.toNat < 0xC000 ∧ s.busy = true ∧ memWrite addr v s = raiseError .accessWhileBusy s) ∨
    (target addr = .cmd ∧ s.busy = true ∧ memWrite addr v s = raiseError .cmdWhileBusy s) ∨
    (∃ c, target addr = .cmd ∧ s.busy = false ∧ decode v = .ok c ∧ memWrite addr v s = accept c s) ∨
    (target addr = .cmd ∧ s.busy = false ∧ (∃ e, decode v = .error e) ∧
      memWrite addr v s = raiseError .illegalCmd s) ∨
    (target addr = .status ∧ memWrite addr v s = writeStatus v s) ∨
    memWrite addr v s = s := by
  cases ht : target addr with
  | buffer X i =>
    have hlt := (target_buffer_lt ht).2.2
    cases hb : s.busy with
    | true => exact .inr (.inl ⟨hlt, rfl, by simp [memWrite, ht, writeBuffer, hb]⟩)
    | false => exact .inl ⟨X, i, rfl, rfl, by simp [memWrite, ht, writeBuffer, hb]⟩
  | cmd =>
    cases hb : s.busy with
    | true => exact .inr (.inr (.inl ⟨rfl, rfl, by simp [memWrite, ht, present, hb]⟩))
    | false =>
      cases hd : decode v with
      | ok c =>
        exact .inr (.inr (.inr (.inl
          ⟨c, rfl, rfl, rfl, by simp [memWrite, ht, present, presentIdle, hb, hd]⟩)))
      | error e =>
        exact .inr (.inr (.inr (.inr (.inl
          ⟨rfl, rfl, ⟨e, rfl⟩, by simp [memWrite, ht, present, presentIdle, hb, hd]⟩))))
  | status => exact .inr (.inr (.inr (.inr (.inr (.inl ⟨rfl, by simp [memWrite, ht]⟩)))))
  | errcode => exact .inr (.inr (.inr (.inr (.inr (.inr (by simp [memWrite, ht]))))))
  | geom => exact .inr (.inr (.inr (.inr (.inr (.inr (by simp [memWrite, ht]))))))
  | reserved => exact .inr (.inr (.inr (.inr (.inr (.inr (by simp [memWrite, ht]))))))

/-- The only address of CMD (R72). -/
theorem target_cmd {a : Addr} (h : target a = .cmd) : a = 0xC000#16 := by
  revert h
  simp only [target]
  repeat' split
  all_goals
    first
    | (intro h; exact Target.noConfusion h)
    | (intro _; apply BitVec.eq_of_toNat_eq; simpa)

/-- The only address of STATUS (R72). -/
theorem target_status {a : Addr} (h : target a = .status) : a = 0xC001#16 := by
  revert h
  simp only [target]
  repeat' split
  all_goals
    first
    | (intro h; exact Target.noConfusion h)
    | (intro _; apply BitVec.eq_of_toNat_eq; simpa)

/-- What no read transaction reaches. -/
theorem memRead_keeps (a : Addr) (s : State) :
    (memRead a s).2.temps = s.temps ∧ (memRead a s).2.hostPc = s.hostPc ∧
      (memRead a s).2.script = s.script ∧ (memRead a s).2.turns = s.turns ∧
      (memRead a s).2.draws = s.draws ∧ (memRead a s).2.mem = s.mem ∧
      (memRead a s).2.eng = s.eng ∧ (memRead a s).2.busy = s.busy ∧
      (memRead a s).2.done = s.done := by
  rcases memRead_state a s with h | ⟨_, _, h⟩ <;> rw [h] <;> simp

/-- What no write transaction reaches. -/
theorem memWrite_keeps (a : Addr) (v : Byte) (s : State) :
    (memWrite a v s).temps = s.temps ∧ (memWrite a v s).hostPc = s.hostPc ∧
      (memWrite a v s).script = s.script ∧ (memWrite a v s).turns = s.turns ∧
      (memWrite a v s).draws = s.draws := by
  rcases memWrite_cases a v s with ⟨_, _, _, _, h⟩ | ⟨_, _, h⟩ | ⟨_, _, h⟩ | ⟨_, _, _, _, h⟩ |
    ⟨_, _, _, h⟩ | ⟨_, h⟩ | h <;> rw [h] <;> simp [writeStatus_eq]

theorem temp_setTemp (s : State) (x : Temp) (v : Byte) (y : Temp) :
    (s.setTemp x v).temp y = if x = y then v else s.temp y := by
  simp only [State.temp, State.setTemp_temps, cellsGet_set]
  split <;> rfl

end Sys2Proof.Machine
end

