-- ==== Sys2Proof/Laws/PerInstr.lean ====
section
/-! SUPPORT. Statements made per instruction: every command is one well-formed byte that the decoder
reads back as itself (30_encoding R120, R121). -/

namespace Sys2Proof.Laws.CommandByte

/-- The command is well formed, its byte has Z = 00000, and its byte decodes to it and leaves the bytes
after it. -/
def Statement (i : Instr) : Prop :=
  i.wellFormed = true ∧ fieldZ (encode i) = 0 ∧
    ∀ rest, decodeBytes (encode i :: rest) = some (i, rest)

theorem runA : Statement .runA := ⟨rfl, rfl, fun _ => rfl⟩
theorem runB : Statement .runB := ⟨rfl, rfl, fun _ => rfl⟩
theorem runC : Statement .runC := ⟨rfl, rfl, fun _ => rfl⟩
theorem runD : Statement .runD := ⟨rfl, rfl, fun _ => rfl⟩
theorem runAll : Statement .runAll := ⟨rfl, rfl, fun _ => rfl⟩

end Sys2Proof.Laws.CommandByte
end

