-- ==== Sys2Proof/Laws/Script.lean ====
section
/-! SUPPORT. What expanding a source script can do, each said once: the statements of FILL and LOAD, and
the labels of a script put together from two. -/

namespace Sys2Proof.Machine

theorem length_loadStmts (X : Buf) (i : Nat) (vs : List Byte) :
    (loadStmts X i vs).length = vs.length := by
  induction vs generalizing i with
  | nil => rfl
  | cons v vs ih => simp [loadStmts, ih]

/-- Statement `m` of a LOAD writes its value `m` (R126). -/
theorem getElem?_loadStmts (X : Buf) (i : Nat) {vs : List Byte} {m : Nat} {v : Byte}
    (h : vs[m]? = some v) : (loadStmts X i vs)[m]? = some (.write (bufAddr X (i + m)) v) := by
  induction vs generalizing i m with
  | nil => cases h
  | cons w vs ih =>
    cases m with
    | zero => cases h; rfl
    | succ m =>
      have e : i + 1 + m = i + (m + 1) := by omega
      simpa [loadStmts, e] using ih (i + 1) h

/-- FILL and LOAD define no label. -/
theorem scriptLabels_loadStmts (X : Buf) (i : Nat) (vs : List Byte) :
    scriptLabels (loadStmts X i vs) = [] := by
  induction vs generalizing i with
  | nil => rfl
  | cons v vs ih => exact ih (i + 1)

theorem scriptLabels_append (a b : List Stmt) :
    scriptLabels (a ++ b) = scriptLabels a ++ scriptLabels b := by
  induction a with
  | nil => rfl
  | cons st a ih => cases st <;> simp [scriptLabels, ih]

/-- A jump's target is still a label when labels are added. -/
theorem targetIn_mono {ls ls' : List Label} (h : ∀ l ∈ ls, l ∈ ls') {st : Stmt}
    (hst : st.targetIn ls = true) : st.targetIn ls' = true := by
  cases st <;> simp_all [Stmt.targetIn]

/-- `labelsDistinct` is the library's `Nodup`. -/
theorem labelsDistinct_iff (ls : List Label) : labelsDistinct ls = true ↔ ls.Nodup := by
  induction ls with
  | nil => simp [labelsDistinct]
  | cons l ls ih => simp [labelsDistinct, ih]

end Sys2Proof.Machine
end

