-- ==== Sys2Proof/Laws/Stages.lean ====
section
/-! SUPPORT. The arithmetic of the four stages: where each destination byte comes from, that Stage C's
destinations and their inverse agree, and the bits of merge_bits and expand. -/

namespace Sys2Proof.Machine

/-! ### Index maps at n = 16 -/

theorem indexA_eq (j : Nat) :
    indexA j = (31 - j / 256) * 256 + 8 * (j % 256 / 8) + (7 - j % 8) := rfl

theorem indexB_eq (j : Nat) :
    indexB j = j / 4096 * 4096 + 8 * (2 * (j % 2048 / 8) + j % 4096 / 2048) + j % 8 := rfl

theorem dest_eq (h j : Nat) :
    dest h j = 4096 * h + 32 * (j % 8) + 2 * (j / 8 % 16) + 256 * (j / 128) := by
  have e : dest h j = h * 4096 + j % 8 * 16 * 2 + j / 8 % 16 * 2 + j / 128 * 128 * 2 := rfl
  omega

theorem halfOfDest_eq (d : Nat) : halfOfDest d = d / 4096 := rfl

theorem offsetOfDest_eq (d : Nat) :
    offsetOfDest d = 8 * (d % 4096 / 256 * 16 + d % 32 / 2) + d / 32 % 8 := rfl

theorem indexA_lt {j : Nat} (h : j < 8192) : indexA j < 8192 := by
  rw [indexA_eq]; omega

theorem indexA_indexA {j : Nat} (h : j < 8192) : indexA (indexA j) = j := by
  simp only [indexA_eq]; omega

theorem indexB_lt {j : Nat} (h : j < 8192) : indexB j < 8192 := by
  rw [indexB_eq]; omega

theorem offsetOfDest_lt {d : Nat} (_h : d < 8192) : offsetOfDest d < 2048 := by
  rw [offsetOfDest_eq]; omega

theorem dest_even (h j : Nat) : dest h j % 2 = 0 := by rw [dest_eq]; omega

theorem dest_lt {h j : Nat} (hh : h < 2) (hj : j < 2048) : dest h j + 1 < 8192 := by
  rw [dest_eq]; omega

/-- `dest` in the coordinates tile row, column and byte in the tile. -/
theorem dest_coords (h : Nat) {row col b : Nat} (hc : col < 16) (hb : b < 8) :
    dest h (128 * row + 8 * col + b) = 4096 * h + 256 * row + 32 * b + 2 * col := by
  have h1 : (128 * row + 8 * col + b) % 8 = b := by omega
  have h2 : (128 * row + 8 * col + b) / 8 % 16 = col := by omega
  have h3 : (128 * row + 8 * col + b) / 128 = row := by omega
  rw [dest_eq, h1, h2, h3]; omega

theorem halfOfDest_coords (h : Nat) {row b col e : Nat} (hr : row < 16) (hb : b < 8)
    (hc : col < 16) (he : e < 2) :
    halfOfDest (4096 * h + 256 * row + 32 * b + 2 * col + e) = h := by
  rw [halfOfDest_eq]; omega

theorem offsetOfDest_coords (h : Nat) {row b col e : Nat} (hr : row < 16) (hb : b < 8)
    (hc : col < 16) (he : e < 2) :
    offsetOfDest (4096 * h + 256 * row + 32 * b + 2 * col + e) = 128 * row + 8 * col + b := by
  have h1 : (4096 * h + 256 * row + 32 * b + 2 * col + e) % 4096 / 256 = row := by omega
  have h2 : (4096 * h + 256 * row + 32 * b + 2 * col + e) % 32 / 2 = col := by omega
  have h3 : (4096 * h + 256 * row + 32 * b + 2 * col + e) / 32 % 8 = b := by omega
  rw [offsetOfDest_eq, h1, h2, h3]; omega

/-- A source offset in coordinates. -/
theorem offset_coords {j : Nat} (hj : j < 2048) :
    ∃ row col b, row < 16 ∧ col < 16 ∧ b < 8 ∧ j = 128 * row + 8 * col + b :=
  ⟨j / 128, j / 8 % 16, j % 8, by omega, by omega, by omega, by omega⟩

/-- A destination index in coordinates. -/
theorem destination_coords {d : Nat} (hd : d < 8192) :
    ∃ h row b col e, h < 2 ∧ row < 16 ∧ b < 8 ∧ col < 16 ∧ e < 2 ∧
      d = 4096 * h + 256 * row + 32 * b + 2 * col + e :=
  ⟨d / 4096, d % 4096 / 256, d / 32 % 8, d % 32 / 2, d % 2,
    by omega, by omega, by omega, by omega, by omega, by omega⟩

theorem source_of_dest (h : Nat) {j e : Nat} (hj : j < 2048) (he : e < 2) :
    halfOfDest (dest h j + e) = h ∧ offsetOfDest (dest h j + e) = j := by
  obtain ⟨row, col, b, hr, hc, hb, rfl⟩ := offset_coords hj
  rw [dest_coords h hc hb]
  exact ⟨halfOfDest_coords h hr hb hc he, offsetOfDest_coords h hr hb hc he⟩

/-- Every destination byte is covered (R215). -/
theorem dest_offsetOfDest {d : Nat} (hd : d < 8192) :
    d = dest (halfOfDest d) (offsetOfDest d) + d % 2 := by
  obtain ⟨h, row, b, col, e, -, hr, hb, hc, he, rfl⟩ := destination_coords hd
  rw [halfOfDest_coords h hr hb hc he, offsetOfDest_coords h hr hb hc he, dest_coords h hc hb]
  omega

/-! ### Stage bytes -/

theorem mergedWord_eq (src : Nat → Byte) (h j : Nat) :
    mergedWord src h j = mergeBits (src (h * 4096 + j)) (src (h * 4096 + 2048 + j)) := rfl

theorem stageC_dest (src : Nat → Byte) (h : Nat) {j : Nat} (hj : j < 2048) :
    stageC src (dest h j) = mergeHigh (mergedWord src h j) := by
  obtain ⟨h1, h2⟩ := source_of_dest h hj (e := 0) (by omega)
  simp only [Nat.add_zero] at h1 h2
  simp only [stageC, h1, h2, dest_even, if_true]

theorem stageC_dest_succ (src : Nat → Byte) (h : Nat) {j : Nat} (hj : j < 2048) :
    stageC src (dest h j + 1) = mergeLow (mergedWord src h j) := by
  obtain ⟨h1, h2⟩ := source_of_dest h hj (e := 1) (by omega)
  have hodd : (dest h j + 1) % 2 ≠ 0 := by have := dest_even h j; omega
  simp only [stageC, h1, h2, if_neg hodd]

theorem stageD_even (src : Nat → Byte) (i : Nat) : stageD src (2 * i) = expandHi (src i) := by
  have h1 : 2 * i % 2 = 0 := by omega
  have h2 : 2 * i / 2 = i := by omega
  simp only [stageD, h1, h2, if_true]

theorem stageD_odd (src : Nat → Byte) (i : Nat) : stageD src (2 * i + 1) = expandLo (src i) := by
  have h1 : (2 * i + 1) % 2 ≠ 0 := by omega
  have h2 : (2 * i + 1) / 2 = i := by omega
  simp only [stageD, if_neg h1, h2]

/-! ### Bits -/

/-- Bit `2i` of the merged word is bit `i` of layer 0, bit `2i + 1` is bit `i` of layer 1 (R210). -/
theorem getLsbD_mergeBits (a b : Byte) {i : Nat} (hi : i < 8) :
    (mergeBits a b).getLsbD (2 * i) = a.getLsbD i ∧
      (mergeBits a b).getLsbD (2 * i + 1) = b.getLsbD i := by
  interval_cases i <;> simp [mergeBits, mergeLane]

end Sys2Proof.Machine
end

