-- ==== Sys2Proof/Laws/Step.lean ====
section
/-! SUPPORT. What executing a command, a host turn and a step can do, each said once. -/

namespace Sys2Proof.Machine

/-- Memory whose buffers outside `Xs` are as in `m`, and whose buffers in `Xs` are wholly written. -/
def fillsOnly (Xs : List Buf) (m m' : Memory) : Prop :=
  (m.wf = true → m'.wf = true) ∧ (∀ X, X ∉ Xs → m'.cells X = m.cells X) ∧
    ∀ X, X ∈ Xs → ∃ f, m'.cells X = cellsFill (Config.bufLen X) f

theorem fillsOnly_fillBuf (s : State) (X : Buf) (f : Nat → Byte) :
    fillsOnly [X] s.mem (s.fillBuf X f).mem := by
  refine ⟨wf_fillBuf f, fun Y hY => ?_, fun Y hY => ⟨f, ?_⟩⟩
  · have h : Y ≠ X := by simpa using hY
    rw [State.fillBuf_mem, cells_setCells_other _ _ h]
  · have h : Y = X := by simpa using hY
    subst h; simp

theorem fillsOnly_cons {X : Buf} {Xs : List Buf} {m m' m'' : Memory} (h : fillsOnly [X] m m')
    (h' : fillsOnly Xs m' m'') : fillsOnly (X :: Xs) m m'' := by
  obtain ⟨w, o, i⟩ := h
  obtain ⟨w', o', i'⟩ := h'
  refine ⟨w' ∘ w, fun Y hY => ?_, fun Y hY => ?_⟩
  · have hY' : Y ≠ X ∧ Y ∉ Xs := by simpa using hY
    rw [o' Y hY'.2, o Y (by simpa using hY'.1)]
  · by_cases hm : Y ∈ Xs
    · exact i' Y hm
    · have hYX : Y = X := (List.mem_cons.mp hY).resolve_right hm
      rw [o' Y hm]
      exact i Y (by simp [hYX])

/-- `t` is `s` but for its memory. -/
def onlyMem (s t : State) : Prop := ∃ m, t = { s with mem := m }

theorem onlyMem_fillBuf (s : State) (X : Buf) (f : Nat → Byte) : onlyMem s (s.fillBuf X f) :=
  ⟨_, rfl⟩

theorem onlyMem_trans {s t u : State} (h : onlyMem s t) (h' : onlyMem t u) : onlyMem s u := by
  obtain ⟨m, rfl⟩ := h
  obtain ⟨m', rfl⟩ := h'
  exact ⟨m', rfl⟩

theorem onlyMem_eq {s t : State} (h : onlyMem s t) : t = { s with mem := t.mem } := by
  obtain ⟨m, rfl⟩ := h
  rfl

theorem onlyMem_writeAllStages (s : State) : onlyMem s (writeAllStages s) :=
  onlyMem_trans (onlyMem_fillBuf s .ba _) (onlyMem_trans (onlyMem_fillBuf _ .bb _)
    (onlyMem_trans (onlyMem_fillBuf _ .bc _) (onlyMem_fillBuf _ .out _)))

/-- Everything executing a command can do: it always completes, it writes the command's destinations
and no other buffer, and beside memory it changes what `finish` changes (R155, R158). -/
theorem exec_spec (c : Instr) (s : State) :
    ∃ m, exec c s = .next (finish { s with mem := m }) ∧ fillsOnly (destsOf c) s.mem m := by
  cases c with
  | runA => exact ⟨(writeStageA s).mem, rfl, fillsOnly_fillBuf s .ba _⟩
  | runB => exact ⟨(writeStageB s).mem, rfl, fillsOnly_fillBuf s .bb _⟩
  | runC => exact ⟨(writeStageC s).mem, rfl, fillsOnly_fillBuf s .bc _⟩
  | runD => exact ⟨(writeStageD s).mem, rfl, fillsOnly_fillBuf s .out _⟩
  | runAll =>
    refine ⟨(writeAllStages s).mem, ?_, ?_⟩
    · rw [← onlyMem_eq (onlyMem_writeAllStages s)]; rfl
    · exact fillsOnly_cons (fillsOnly_fillBuf s .ba (stageA (s.byte .inp)))
        (fillsOnly_cons (fillsOnly_fillBuf (writeStageA s) .bb _)
          (fillsOnly_cons (fillsOnly_fillBuf (writeStageB (writeStageA s)) .bc _)
            (fillsOnly_fillBuf (writeStageC (writeStageB (writeStageA s))) .out _)))

/-! ### Each stage's writes depend on the memory alone -/

theorem byte_funext {s t : State} (h : t.mem = s.mem) (X : Buf) : t.byte X = s.byte X :=
  funext (byte_congr h X)

theorem writeStageA_mem_congr {s t : State} (h : t.mem = s.mem) :
    (writeStageA t).mem = (writeStageA s).mem := by
  simp only [writeStageA, State.fillBuf_mem, h, byte_funext h]

theorem writeStageB_mem_congr {s t : State} (h : t.mem = s.mem) :
    (writeStageB t).mem = (writeStageB s).mem := by
  simp only [writeStageB, State.fillBuf_mem, h, byte_funext h]

theorem writeStageC_mem_congr {s t : State} (h : t.mem = s.mem) :
    (writeStageC t).mem = (writeStageC s).mem := by
  simp only [writeStageC, State.fillBuf_mem, h, byte_funext h]

theorem writeStageD_mem_congr {s t : State} (h : t.mem = s.mem) :
    (writeStageD t).mem = (writeStageD s).mem := by
  simp only [writeStageD, State.fillBuf_mem, h, byte_funext h]

/-- The memory RUN_ALL writes, through states that have finished each stage in between. -/
theorem writeAllStages_mem_finish (s : State) :
    (writeStageD (finish (writeStageC (finish (writeStageB (finish (writeStageA s))))))).mem =
      (writeAllStages s).mem :=
  writeStageD_mem_congr (writeStageC_mem_congr (writeStageB_mem_congr rfl))

theorem byte_writeAllStages (s : State) (X : Buf) (i : Nat) :
    (finish (writeAllStages s)).byte X i =
      (finish (writeStageD (finish (writeStageC (finish (writeStageB
        (finish (writeStageA s)))))))).byte X i := by
  apply byte_congr
  rw [finish_mem, finish_mem, writeAllStages_mem_finish]

/-! ### A destination byte after each stage command -/

theorem byte_finish (s : State) (X : Buf) (i : Nat) : (finish s).byte X i = s.byte X i := rfl

theorem byte_execRunA {s t : State} (h : exec .runA s = .next t) {j : Nat} (hj : j < 8192) :
    t.byte .ba j = s.byte .inp (indexA j) := by
  cases h
  exact byte_fillBuf_same s .ba _ hj

theorem byte_execRunB {s t : State} (h : exec .runB s = .next t) {j : Nat} (hj : j < 8192) :
    t.byte .bb j = s.byte .ba (indexB j) := by
  cases h
  exact byte_fillBuf_same s .bb _ hj

theorem byte_execRunC {s t : State} (h : exec .runC s = .next t) {d : Nat} (hd : d < 8192) :
    t.byte .bc d = stageC (s.byte .bb) d := by
  cases h
  exact byte_fillBuf_same s .bc _ hd

theorem byte_execRunD {s t : State} (h : exec .runD s = .next t) {k : Nat} (hk : k < 16384) :
    t.byte .out k = stageD (s.byte .bc) k := by
  cases h
  exact byte_fillBuf_same s .out _ hk

/-! ### Turns -/

/-- What a jump of the host can answer (R125). -/
theorem hostJumpIf_next {b : Bool} {l : Label} {s t : State} (h : hostJumpIf b l s = .next t) :
    ∃ k, t = { s with hostPc := k } := by
  revert h
  simp only [hostJumpIf, hostJump]
  split
  · split
    · intro h; cases h; exact ⟨_, rfl⟩
    · intro h; cases h
  · intro h; cases h; exact ⟨_, rfl⟩

/-- Everything a host turn that answers a next state can do (R125). -/
theorem hostTurn_cases {s t : State} (h : hostTurn s = .next t) :
    (∃ addr v, s.script[s.hostPc]? = some (.write addr v) ∧ t = hostWrite addr v s) ∨
    (∃ addr x, s.script[s.hostPc]? = some (.read addr x) ∧ t = hostRead addr x s) ∨
    (∃ k, t = { s with hostPc := k }) := by
  revert h
  simp only [hostTurn]
  split
  · next st hst =>
    cases st with
    | write addr v => intro h; cases h; exact .inl ⟨addr, v, hst, rfl⟩
    | read addr x => intro h; cases h; exact .inr (.inl ⟨addr, x, hst, rfl⟩)
    | label l => intro h; cases h; exact .inr (.inr ⟨_, rfl⟩)
    | jz x mask l => intro h; exact .inr (.inr (hostJumpIf_next h))
    | jnz x mask l => intro h; exact .inr (.inr (hostJumpIf_next h))
    | halt => intro h; cases h; exact .inr (.inr ⟨_, rfl⟩)
  · intro h; cases h; exact .inr (.inr ⟨_, rfl⟩)

/-- Everything a step that answers a next state can do (R84). -/
theorem step_cases {s t : State} (h : step s = .next t) :
    (nextTurn s = .reset ∧ t = resetBlock (dropTurn s)) ∨
    (nextTurn s = .engine ∧ s.eng = .idle ∧ t = dropTurn s) ∨
    (∃ c, nextTurn s = .engine ∧ s.eng = .running c ∧ exec c (dropTurn s) = .next t) ∨
    (nextTurn s = .host ∧ hostTurn (dropTurn s) = .next t) := by
  simp only [step, takeTurn] at h
  cases ht : nextTurn s with
  | host => rw [ht] at h; exact .inr (.inr (.inr ⟨rfl, h⟩))
  | reset => rw [ht] at h; cases h; exact .inl ⟨rfl, rfl⟩
  | engine =>
    rw [ht] at h
    simp only [engineTurn, dropTurn_eng] at h
    cases he : s.eng with
    | idle => rw [he] at h; cases h; exact .inr (.inl ⟨rfl, rfl, rfl⟩)
    | running c => rw [he] at h; exact .inr (.inr (.inl ⟨c, rfl, rfl, h⟩))

/-- A temporary after the host's read statement (R125). -/
theorem hostRead_temp (a : Addr) (x y : Temp) (s : State) :
    (hostRead a x s).temp y = if x = y then (memRead a s).1 else s.temp y := by
  have h : (hostRead a x s).temp y = ((memRead a s).2.setTemp x (memRead a s).1).temp y := rfl
  rw [h, temp_setTemp]
  simp only [State.temp, (memRead_keeps a s).1]

theorem step_host {s : State} (h : nextTurn s = .host) : step s = hostTurn (dropTurn s) := by
  simp only [step, h, takeTurn]

theorem step_reset {s : State} (h : nextTurn s = .reset) :
    step s = .next (resetBlock (dropTurn s)) := by
  simp only [step, h, takeTurn]

theorem step_engine {s : State} {c : Instr} (h : nextTurn s = .engine) (hr : s.eng = .running c) :
    step s = exec c (dropTurn s) := by
  simp only [step, h, takeTurn, engineTurn, dropTurn_eng, hr]

end Sys2Proof.Machine
end

