-- ==== Sys2Proof/Tests/Slice0.lean ====
section
/-! SUPPORT. The model's own tests: words written out from the spec's encoding, the ill-formed terms
WellFormed refuses, the vectors of spec/95_test_vectors.md, and for each statement with hypotheses a
state and operands that meet them. Expected values are the spec's. -/

namespace Sys2Proof.Machine

/-! ### Well-formedness: one ill-formed term for each check -/

theorem test_wf_commands : [Instr.runA, .runB, .runC, .runD, .runAll].all Instr.wellFormed := by decide
theorem test_wf_accepts_loop :
    scriptWellFormed [.label (.named 1), .read statusAddr 0, .jz 0 2#8 (.named 1), .halt] := by decide
theorem test_wf_refuses_jz_to_missing_label :
    scriptWellFormed [.label (.named 1), .jz 0 2#8 (.named 2)] = false := by decide
theorem test_wf_refuses_jnz_to_missing_label :
    scriptWellFormed [.jnz 0 2#8 (.named 2), .halt] = false := by decide
theorem test_wf_refuses_label_twice :
    scriptWellFormed [.label (.named 1), .halt, .label (.named 1)] = false := by decide

theorem test_wf_accepts_source_script :
    srcWellFormed [.plain (.label (.named 1)), .load .inp 0 [1#8, 2#8], .cmd .runA, .waitDone, .waitIdle,
      .clear, .fill .out 0x7FFF 1 0#8, .plain (.jz 1 2#8 (.named 1)), .plain .halt] := by decide
theorem test_wf_refuses_fresh_label :
    srcWellFormed [.plain (.label (.fresh 1)), .waitDone] = false ∧
      srcWellFormed [.waitDone, .plain (.jz 0 2#8 (.fresh 0))] = false := by decide
theorem test_wf_refuses_jump_to_missing_label :
    srcWellFormed [.waitDone, .plain (.jnz 0 2#8 (.named 1))] = false := by decide
/-- OUT + 0x8000 is 0x10000, no 16-bit address (R70, R71). -/
theorem test_wf_refuses_addresses_past_the_port :
    srcWellFormed [.fill .out 0x7FFF 2 0#8] = false ∧
      srcWellFormed [.load .out 0x8000 [1#8]] = false := by decide

/-! ### Decoding: Z (bits 7:3) and OP (bits 2:0) of R120 -/

theorem test_decode_runA : decode ((0b00000#5) ++ (0b001#3)) = .ok .runA := by decide
theorem test_decode_runB : decode ((0b00000#5) ++ (0b010#3)) = .ok .runB := by decide
theorem test_decode_runC : decode ((0b00000#5) ++ (0b011#3)) = .ok .runC := by decide
theorem test_decode_runD : decode ((0b00000#5) ++ (0b100#3)) = .ok .runD := by decide
theorem test_decode_runAll : decode ((0b00000#5) ++ (0b101#3)) = .ok .runAll := by decide
theorem test_decode_refuses_unassigned_op :
    decode 0x00#8 = .error (.unassignedOp 0x00#8) ∧ decode 0x06#8 = .error (.unassignedOp 0x06#8) ∧
      decode 0x07#8 = .error (.unassignedOp 0x07#8) := by decide
theorem test_decode_refuses_reserved_bits :
    decode 0x09#8 = .error (.reservedBits 0x09#8) ∧ decode 0xFF#8 = .error (.reservedBits 0xFF#8) := by
  decide
theorem test_decode_table_words :
    decodeTableWord 8 1 = some .runA ∧ decodeTableWord 8 2 = some .runB ∧
      decodeTableWord 8 3 = some .runC ∧ decodeTableWord 8 4 = some .runD ∧
      decodeTableWord 8 5 = some .runAll ∧ decodeTableWord 8 6 = none := by decide

/-! ### The address map (R71) where rows meet -/

theorem test_target_edges :
    target 0x1FFF#16 = .buffer .inp 8191 ∧ target 0x2000#16 = .buffer .ba 0 ∧
      target 0x3FFF#16 = .buffer .ba 8191 ∧ target 0x4000#16 = .buffer .bb 0 ∧
      target 0x5FFF#16 = .buffer .bb 8191 ∧ target 0x6000#16 = .buffer .bc 0 ∧
      target 0x7FFF#16 = .buffer .bc 8191 ∧ target 0x8000#16 = .buffer .out 0 ∧
      target 0xBFFF#16 = .buffer .out 16383 ∧ target 0xC000#16 = .cmd ∧
      target 0xC003#16 = .geom ∧ target 0xC004#16 = .reserved ∧ target 0xFFFF#16 = .reserved := by
  decide

/-! ### merge_bits, dest, expand and the index maps (95 sections 2.1 to 2.4) -/

theorem test_mergeBits :
    mergeBits 0xA5#8 0x3C#8 = 0x4EB1#16 ∧ mergeBits 0xF0#8 0x0F#8 = 0x55AA#16 ∧
      mergeBits 0x80#8 0x01#8 = 0x4002#16 := by decide
theorem test_dest :
    dest 0 1 = 32 ∧ dest 0 8 = 2 ∧ dest 0 127 = 254 ∧ dest 0 129 = 288 ∧ dest 1 0 = 4096 ∧
      dest 1 2047 = 8190 := by decide
theorem test_expand :
    (expandHi 0xE4#8, expandLo 0xE4#8) = (0x32#8, 0x10#8) ∧
      (expandHi 0x9C#8, expandLo 0x9C#8) = (0x21#8, 0x30#8) := by decide
/-- 95 section 2.1: IN index i is found at BA index j, so `indexA j = i`. -/
theorem test_indexA :
    indexA 7943 = 0 ∧ indexA 7936 = 7 ∧ indexA 8184 = 255 ∧ indexA 4344 = 4095 ∧
      indexA 3847 = 4096 ∧ indexA 248 = 8191 := by decide
/-- 95 section 2.2: BA index i is found at BB index j, so `indexB j = i`. -/
theorem test_indexB :
    indexB 2048 = 8 ∧ indexB 8 = 16 ∧ indexB 2056 = 24 ∧ indexB 4088 = 4088 ∧ indexB 6144 = 4104 ∧
      indexB 8191 = 8191 := by decide

/-! ### A state with one source byte set, for the stages (95 section 2.5, first row) -/

/-- Buffer `X` all 0 but byte `k`, which is 0x80; the rest as after reset. -/
def oneByte (X : Buf) (k : Nat) : State :=
  State.reset.fillBuf X fun i => if i = k then 0x80#8 else 0x00#8

theorem byte_oneByte (X : Buf) (k : Nat) {i : Nat} (h : i < Config.bufLen X) :
    (oneByte X k).byte X i = if i = k then 0x80#8 else 0x00#8 :=
  byte_fillBuf_same State.reset X _ h

theorem test_runA_moves_in0_to_ba7943 :
    ∃ t, exec .runA (oneByte .inp 0) = .next t ∧ t.byte .ba 7943 = 0x80#8 ∧
      t.byte .ba 7942 = 0x00#8 := by
  refine ⟨_, rfl, ?_, ?_⟩ <;>
    rw [byte_execRunA rfl (by omega), byte_oneByte _ _ (by decide)] <;> decide

theorem test_runB_moves_ba8_to_bb2048 :
    ∃ t, exec .runB (oneByte .ba 8) = .next t ∧ t.byte .bb 2048 = 0x80#8 ∧
      t.byte .bb 8 = 0x00#8 := by
  refine ⟨_, rfl, ?_, ?_⟩ <;>
    rw [byte_execRunB rfl (by omega), byte_oneByte _ _ (by decide)] <;> decide

theorem test_runC_merges_bb0 :
    ∃ t, exec .runC (oneByte .bb 0) = .next t ∧ t.byte .bc 0 = 0x40#8 ∧ t.byte .bc 1 = 0x00#8 := by
  have h0 : mergedWord ((oneByte .bb 0).byte .bb) 0 0 = 0x4000#16 := by
    rw [mergedWord_eq, byte_oneByte _ _ (by decide), byte_oneByte _ _ (by decide)]
    decide
  refine ⟨_, rfl, ?_, ?_⟩
  · refine (byte_execRunC rfl (by omega)).trans
      ((stageC_dest (j := 0) _ 0 (by omega)).trans ?_)
    rw [h0]; decide
  · refine (byte_execRunC rfl (by omega)).trans
      ((stageC_dest_succ (j := 0) _ 0 (by omega)).trans ?_)
    rw [h0]; decide

theorem test_runD_expands_bc0 :
    ∃ t, exec .runD (oneByte .bc 0) = .next t ∧ t.byte .out 0 = 0x20#8 ∧ t.byte .out 1 = 0x00#8 := by
  refine ⟨_, rfl, ?_, ?_⟩
  · rw [byte_execRunD rfl (by omega), show (0 : Nat) = 2 * 0 from rfl, stageD_even,
      byte_oneByte _ _ (by decide)]
    decide
  · rw [byte_execRunD rfl (by omega), show (1 : Nat) = 2 * 0 + 1 from rfl, stageD_odd,
      byte_oneByte _ _ (by decide)]
    decide

/-- 95 section 2.5, first row: IN[0] = 80 gives BA[7943] = 80 after RUN_ALL too. -/
theorem test_runAll_writes_ba7943 :
    ∃ t, exec .runAll (oneByte .inp 0) = .next t ∧ t.byte .ba 7943 = 0x80#8 ∧ t.done = true := by
  refine ⟨_, rfl, ?_, rfl⟩
  rw [byte_finish, writeAllStages, writeStageD, byte_fillBuf_other _ _ (by decide), writeStageC,
    byte_fillBuf_other _ _ (by decide), writeStageB, byte_fillBuf_other _ _ (by decide),
    writeStageA, byte_fillBuf_same _ _ _ (by decide), stageA, byte_oneByte _ _ (by decide)]
  decide

/-! ### Command unit, registers and errors (95 section 2.6) -/

/-- Idle, with STATUS and ERRCODE as given. -/
def idleWith (done err : Bool) (code : ErrCode) : State :=
  { State.reset with done := done, err := err, errCode := code }

/-- Busy with `c`, DONE 0. -/
def busyWith (c : Instr) (err : Bool) (code : ErrCode) : State :=
  { State.reset with eng := .running c, busy := true, err := err, errCode := code }

theorem test_V1_status_after_reset : memRead 0xC001#16 State.reset = (0x00#8, State.reset) := by decide
theorem test_V6_illegal_code : memWrite 0xC000#16 0x06#8 State.reset = idleWith false true .illegalCmd := by
  decide
theorem test_V10_accept_keeps_error :
    memWrite 0xC000#16 0x01#8 (idleWith true true .illegalCmd) = busyWith .runA true .illegalCmd ∧
      readStatus (busyWith .runA true .illegalCmd) = 0x05#8 := by decide
theorem test_V12_busy_is_tested_first :
    memWrite 0xC000#16 0xFF#8 (busyWith .runC false .noError) = busyWith .runC true .cmdWhileBusy := by
  decide
theorem test_V13_busy_read :
    memRead 0x0000#16 (busyWith .runA false .noError) = (0x00#8, busyWith .runA true .accessWhileBusy) := by
  decide
theorem test_V14_busy_write :
    memWrite 0x8000#16 0x12#8 (busyWith .runA false .noError) = busyWith .runA true .accessWhileBusy := by
  decide
theorem test_V17_reserved :
    memWrite 0xFFFF#16 0xAA#8 State.reset = State.reset ∧
      memRead 0xFFFF#16 State.reset = (0x00#8, State.reset) := by decide
theorem test_V18_clear_done :
    memWrite 0xC001#16 0x02#8 (idleWith true true .accessWhileBusy) =
      idleWith false true .accessWhileBusy := by decide
theorem test_V19_clear_error :
    memWrite 0xC001#16 0x04#8 (idleWith true true .accessWhileBusy) = idleWith true false .noError := by
  decide
theorem test_V20_busy_bit_ignored :
    memWrite 0xC001#16 0x01#8 (idleWith true true .accessWhileBusy) =
      idleWith true true .accessWhileBusy := by decide
theorem test_V25_idle_reset :
    resetBlock (memWrite 0x0000#16 0x80#8 (idleWith true true .illegalCmd)) =
      memWrite 0x0000#16 0x80#8 State.reset := by decide
theorem test_write_then_read : (memWrite 0x0001#16 0x80#8 State.reset).byte .inp 1 = 0x80#8 := by decide
/-- Writing in either order gives the same memory: the canonical form. -/
theorem test_memory_is_canonical :
    memWrite 0x2000#16 1#8 (memWrite 0x2001#16 2#8 State.reset) =
      memWrite 0x2001#16 2#8 (memWrite 0x2000#16 1#8 State.reset) := by decide
/-- V24: a reset that interrupts RUN_B leaves BA as it was and BB a draw. -/
theorem test_V24_interrupted :
    (resetBlock (busyWith .runB false .noError)).mem.ba = [] ∧
      (resetBlock (busyWith .runB false .noError)).byte .bb 5 = Config.interruptedByte 0 .bb 5 := by
  refine ⟨rfl, ?_⟩
  obtain ⟨m, e, -, -, hi⟩ := resetBlock_running (s := busyWith .runB false .noError) (c := .runB) rfl
  rw [e, State.byte, resetFlags_mem, hi .bb (by decide), cellsGet_fill]
  rfl

/-! ### Stepping -/

/-- After reset, a loaded command's word is executed by the very next step. -/
theorem test_step_runs_loaded_words :
    (∃ t, step (State.reset.withFetchWord 8 1) = .next t ∧ t.done = true) ∧
      (∃ t, step (State.reset.withFetchWord 8 2) = .next t ∧ t.done = true) ∧
      (∃ t, step (State.reset.withFetchWord 8 3) = .next t ∧ t.done = true) ∧
      (∃ t, step (State.reset.withFetchWord 8 4) = .next t ∧ t.done = true) ∧
      ∃ t, step (State.reset.withFetchWord 8 5) = .next t ∧ t.done = true :=
  ⟨⟨_, rfl, rfl⟩, ⟨_, rfl, rfl⟩, ⟨_, rfl, rfl⟩, ⟨_, rfl, rfl⟩, ⟨_, rfl, rfl⟩⟩

/-- A loaded word that is no command is presented by the very next step, which raises ILLEGAL_CMD. -/
theorem test_step_presents_illegal_word :
    ∃ t, step (State.reset.withFetchWord 8 6) = .next t ∧ t.err = true ∧ t.errCode = .illegalCmd ∧
      t.eng = .idle := ⟨_, rfl, rfl, rfl, rfl⟩

/-- The host's script is `sc`, the turns are `ts`, the rest as in `s`. -/
def scripted (sc : List Stmt) (ts : List Turn) (s : State) : State :=
  { s with script := sc, turns := ts }

/-- The polling loop of R126, followed by HALT. -/
def pollScript : List Stmt := expandScript [.waitDone, .plain .halt]

/-! ### What the statements' hypotheses ask for, met together -/

theorem witness_EveryOtherByteIsIllegal :
    (0x00#8 : Byte) = 0x00#8 ∧ fieldZ 0x08#8 ≠ 0#5 ∧ fieldZ 0xFF#8 ≠ 0#5 ∧ fieldZ 0x07#8 = 0#5 ∧
      State.reset.busy = false ∧ (busyWith .runA false .noError).busy = true := by decide
theorem witness_EncodedCommandIsReadBack :
    decodeBytes [0x05#8, 0xFF#8] = some (.runAll, [0xFF#8]) := by decide
theorem witness_ReservedAddressesAreInert :
    0xC004 ≤ (0xC004#16).toNat ∧ 0xC004 ≤ (0xFFFF#16).toNat := by decide
theorem witness_IdleBufferAccess :
    State.reset.busy = false ∧ target 0x0000#16 = .buffer .inp 0 ∧
      target 0xBFFF#16 = .buffer .out 16383 := by decide
theorem witness_BusyBufferAccessIsRefused :
    (busyWith .runD false .noError).busy = true ∧ (0x0000#16).toNat < 0xC000 ∧
      (0xBFFF#16).toNat < 0xC000 := by decide
theorem witness_RegisterAccessIgnoresBusy :
    0xC000 ≤ (0xC000#16).toNat ∧ (0xC000#16 : Addr) ≠ 0xC001#16 ∧
      0xC000 ≤ (0xC001#16).toNat ∧ (0xC001#16 : Addr) ≠ 0xC000#16 := by decide
theorem witness_OnlyListedAccessesHaveSideEffects :
    (memRead 0xBFFF#16 (busyWith .runA false .noError)).2 ≠ busyWith .runA false .noError ∧
      memWrite 0xC000#16 0x01#8 State.reset ≠ State.reset ∧
      memWrite 0xC001#16 0x02#8 (idleWith true false .noError) ≠ idleWith true false .noError ∧
      memWrite 0xBFFF#16 0x01#8 State.reset ≠ State.reset := by decide
theorem witness_PresentingACommand :
    (busyWith .runA false .noError).busy = true ∧ State.reset.busy = false ∧
      decode 0x01#8 = .ok .runA ∧ decode 0x05#8 = .ok .runAll ∧
      (0x06#8 : Byte) ∉ [0x01#8, 0x02#8, 0x03#8, 0x04#8, 0x05#8] := by decide
/-- The host presents `v` to CMD, with the host to move. -/
def presenting (v : Byte) (s : State) : State := scripted [.write 0xC000#16 v] [.host] s
theorem witness_StepRunsTheDecodedCommand :
    nextTurn (presenting 0x03#8 State.reset) = .host ∧
      (presenting 0x03#8 State.reset).script[0]? = some (.write 0xC000#16 0x03#8) ∧
      (presenting 0x03#8 State.reset).busy = false ∧ decode 0x03#8 = .ok .runC ∧
      nextTurn (busyWith .runD false .noError) = .engine ∧
      decodeTableWord 8 4 = some .runD := by decide
/-- The engine's turn while ENG = Idle. -/
theorem witness_StepRunsTheDecodedCommand_idle :
    nextTurn (scripted [] [.engine] State.reset) = .engine ∧
      (scripted [] [.engine] State.reset).eng = .idle := by decide
theorem witness_EveryDestinationByteIsWritten :
    (∃ t, exec .runAll State.reset = .next t) ∧ Buf.out ∈ destsOf .runAll ∧ Buf.ba ∈ destsOf .runA :=
  ⟨⟨_, rfl⟩, by decide, by decide⟩
theorem witness_DestinationsDependOnTheSourceAlone :
    ∃ s s' t t' : State, s.done ≠ s'.done ∧
      (∀ i < Config.bufLen (sourceOf .runB), s.byte (sourceOf .runB) i = s'.byte (sourceOf .runB) i) ∧
      exec .runB s = .next t ∧ exec .runB s' = .next t' ∧ Buf.bb ∈ destsOf .runB :=
  ⟨State.reset, idleWith true false .noError, _, _, by decide, fun _ _ => rfl, rfl, rfl, by decide⟩
theorem witness_RunAReversesRows : (31 : Nat) < 32 ∧ (7 : Nat) < 8 ∧ (8191 : Nat) < 8192 := by decide
theorem witness_RunAIsAnInvolution :
    ∃ s t s' t' : State, exec .runA s = .next t ∧ (∀ j < 8192, s'.byte .inp j = t.byte .ba j) ∧
      exec .runA s' = .next t' :=
  ⟨oneByte .inp 0, finish (writeStageA (oneByte .inp 0)),
    State.reset.fillBuf .inp ((finish (writeStageA (oneByte .inp 0))).byte .ba), _, rfl,
    fun _ h => byte_fillBuf_same State.reset .inp _ h, rfl⟩
theorem witness_RunATurnsTheImageUpsideDown :
    (∃ t, exec .runA State.reset = .next t) ∧ (127 : Nat) < 128 ∧ (255 : Nat) < 256 :=
  ⟨⟨_, rfl⟩, by decide, by decide⟩
theorem witness_RunBReordersTiles : (1 : Nat) < 2 ∧ (511 : Nat) < 512 ∧ (7 : Nat) < 8 := by decide
theorem witness_RunBHasAnInverseAndIsNoInvolution :
    ∃ s t s' t' : State, exec .runB s = .next t ∧ (∀ j < 8192, s'.byte .ba j = t.byte .bb j) ∧
      exec .runB s' = .next t' :=
  ⟨oneByte .ba 8, finish (writeStageB (oneByte .ba 8)),
    State.reset.fillBuf .ba ((finish (writeStageB (oneByte .ba 8))).byte .bb), _, rfl,
    fun _ h => byte_fillBuf_same State.reset .ba _ h, rfl⟩
theorem witness_MergeBitsLanes :
    (7 : Nat) < 8 ∧ mergeBits 0x80#8 0x01#8 = mergeBits 0x80#8 0x01#8 := ⟨by decide, rfl⟩
theorem witness_RunCMergesBitplanes : (1 : Nat) < 2 ∧ (2047 : Nat) < 2048 := by decide
theorem witness_StageCDestinationsCoverOnce :
    (8191 : Nat) < 8192 ∧ 8191 = dest 1 2047 + 1 ∧ (0 : Nat) = dest 0 0 := by decide
theorem witness_RunBAndRunCLayOutTheRaster :
    ∃ s u t : State, exec .runB s = .next u ∧ exec .runC u = .next t ∧ (127 : Nat) < 128 ∧
      (255 : Nat) < 256 := ⟨State.reset, _, _, rfl, rfl, by decide, by decide⟩
theorem witness_RunDExpandsPixels : (0 : Nat) < 8192 ∧ (8191 : Nat) < 8192 := by decide
theorem witness_RunDKeepsTheRaster :
    (∃ t, exec .runD State.reset = .next t) ∧ (127 : Nat) < 128 ∧ (255 : Nat) < 256 :=
  ⟨⟨_, rfl⟩, by decide, by decide⟩
theorem witness_RunAllRunsTheFourStages : (1 : Nat) < 2 ∧ (2047 : Nat) < 2048 ∧ (8191 : Nat) < 8192 := by
  decide
theorem witness_PipelineClosedForm : (127 : Nat) < 128 ∧ (255 : Nat) < 256 ∧ (0 : Nat) < 128 := by decide
theorem witness_OutputPixelsAreInRange :
    (∃ t, exec .runD State.reset = .next t) ∧ (∃ t, exec .runAll State.reset = .next t) ∧
      (16383 : Nat) < 16384 := ⟨⟨_, rfl⟩, ⟨_, rfl⟩, by decide⟩
theorem witness_RunAllIsInjective :
    ∃ s s' t t' : State, s ≠ s' ∧ exec .runAll s = .next t ∧ exec .runAll s' = .next t' ∧
      ∀ k < 16384, t.byte .out k = t'.byte .out k :=
  ⟨State.reset, idleWith true false .noError, _, _, by decide, rfl, rfl, fun k _ => by
    simp only [byte_finish]
    exact byte_congr (writeStageD_mem_congr (writeStageC_mem_congr (writeStageB_mem_congr
      (writeStageA_mem_congr rfl)))) .out k⟩
theorem witness_ResetClearsTheBlock :
    nextTurn (scripted [] [.reset] (busyWith .runA true .cmdWhileBusy)) = .reset ∧
      nextTurn (scripted [] [.reset, .host] State.reset) = .reset := by decide
theorem witness_IdleResetKeepsBuffers :
    nextTurn (scripted [] [.reset] State.reset) = .reset ∧
      (scripted [] [.reset] State.reset).eng = .idle := by decide
theorem witness_InterruptedDestinationsAreDraws :
    nextTurn (scripted [] [.reset] (busyWith .runAll false .noError)) = .reset ∧
      (scripted [] [.reset] (busyWith .runAll false .noError)).eng = .running .runAll ∧
      Buf.out ∈ destsOf .runAll ∧ 16383 < Config.bufLen .out ∧ Buf.inp ∉ destsOf .runAll := by decide
theorem witness_HostStatementsAct :
    nextTurn (scripted pollScript [.host] State.reset) = .host ∧
      (scripted pollScript [.host] State.reset).script[0]? = some (.label (.fresh 0)) ∧
      nextTurn (scripted [.write 0x0000#16 1#8] [.host] State.reset) = .host ∧
      nextTurn (scripted [.read 0xC003#16 1] [.host] State.reset) = .host ∧
      nextTurn (scripted [.halt] [.host] State.reset) = .host := by decide
/-- A temporary that holds 2, at a JZ or JNZ to a label the script holds. -/
theorem witness_HostStatementsAct_jumps :
    ((State.reset.setTemp 0 2#8).temp 0 &&& 1#8 = 0#8) ∧
      ((State.reset.setTemp 0 2#8).temp 0 &&& 2#8 ≠ 0#8) ∧
      nextTurn (scripted [.jz 0 1#8 (.named 4), .label (.named 4)] [.host] (State.reset.setTemp 0 2#8)) =
        .host ∧
      labelAt (.named 4) [.jz 0 1#8 (.named 4), .label (.named 4)] = some 1 ∧
      labelAt (.named 4) [.jnz 0 2#8 (.named 4), .label (.named 4)] = some 1 := by decide
theorem witness_LabelsNameTheirPlace :
    labelAt (.fresh 0) pollScript = some 0 ∧ Label.fresh 0 ∈ scriptLabels pollScript := by decide
theorem witness_PseudoStatementsExpand :
    (2 : Nat) < 3 ∧ ([7#8, 8#8] : List Byte)[1]? = some 8#8 ∧
      expandStmt 9 (.load .ba 5 [7#8, 8#8]) = [.write 0x2005#16 7#8, .write 0x2006#16 8#8] := by decide
/-- `X+i` at the first and last index of R71's rows, and one past a buffer's end. -/
theorem witness_PseudoStatementsExpand_addresses :
    bufAddr .inp 0 = 0x0000#16 ∧ bufAddr .inp 0xFFFF = 0xFFFF#16 ∧ bufAddr .ba 0 = 0x2000#16 ∧
      bufAddr .ba 0xDFFF = 0xFFFF#16 ∧ bufAddr .bb 0xBFFF = 0xFFFF#16 ∧
      bufAddr .bc 0x9FFF = 0xFFFF#16 ∧ bufAddr .out 0 = 0x8000#16 ∧ bufAddr .out 0x7FFF = 0xFFFF#16 ∧
      8191 < Config.bufLen .inp ∧ bufAddr .inp 8192 = bufAddr .ba 0 := by decide
theorem witness_ExpandedScriptsAreWellFormed :
    srcWellFormed [.cmd .runA, .waitDone, .cmd .runB, .waitDone, .plain .halt] = true ∧
      scriptLabels (expandScript [.cmd .runA, .waitDone, .cmd .runB, .waitDone, .plain .halt]) =
        [.fresh 1, .fresh 3] := by decide
/-- A polling loop at its label, with RUN_A just accepted and host turns listed. -/
theorem witness_WaitDoneEndsAfterAcceptance :
    (scripted pollScript [.host, .host, .engine] (busyWith .runA false .noError)).eng = .running .runA ∧
      (busyWith .runA false .noError).busy = true ∧ (busyWith .runA false .noError).done = false ∧
      Turn.reset ∉ [Turn.host, .host, .engine] ∧
      (scripted pollScript [] (busyWith .runA false .noError)).hostPc = 0 ∧
      pollScript[0]? = some (.label (.fresh 0)) ∧ pollScript[0 + 1]? = some (.read 0xC001#16 0) ∧
      pollScript[0 + 2]? = some (.jz 0 0x02#8 (.fresh 0)) ∧
      labelAt (.fresh 0) pollScript = some 0 := by decide
theorem witness_WaitDoneWithoutACommandNeverEnds :
    (scripted pollScript [.reset] State.reset).eng = .idle ∧
      (scripted pollScript [.reset] State.reset).done = false ∧
      (scripted pollScript [.reset] State.reset).hostPc = 0 ∧
      pollScript[0]? = some (.label (.fresh 0)) ∧ pollScript[0 + 1]? = some (.read 0xC001#16 0) ∧
      pollScript[0 + 2]? = some (.jz 0 0x02#8 (.fresh 0)) ∧
      labelAt (.fresh 0) pollScript = some 0 := by decide
theorem witness_NoStepTraps :
    scriptWellFormed (scripted pollScript [] State.reset).script = true := by decide
/-- A jump taken to a label the script does not hold stops the host by name. -/
theorem witness_OnlyAMissingLabelFaults :
    step (scripted [.jnz 0 2#8 (.named 4)] [.host] (State.reset.setTemp 0 2#8)) =
        .fault (.noSuchLabel (.named 4)) ∧
      step (scripted [.jz 0 1#8 (.named 4)] [.host] (State.reset.setTemp 0 2#8)) =
        .fault (.noSuchLabel (.named 4)) := ⟨rfl, rfl⟩
theorem witness_StepKeepsTheInvariant :
    (busyWith .runA true .illegalCmd).inv = true ∧
      ∃ t, step (busyWith .runA true .illegalCmd) = .next t := ⟨by decide, ⟨_, rfl⟩⟩
/-- RUN_A just accepted, with every byte of IN 0x01 and every byte of BA 0x80. -/
def runningA : State :=
  accept .runA ((State.reset.fillBuf .ba fun _ => 0x80#8).fillBuf .inp fun _ => 0x01#8)
theorem runningA_inp {i : Nat} (h : i < 8192) : runningA.byte .inp i = 0x01#8 :=
  byte_fillBuf_same (State.reset.fillBuf .ba fun _ => 0x80#8) .inp _ h
theorem runningA_ba {i : Nat} (h : i < 8192) : runningA.byte .ba i = 0x80#8 :=
  (byte_fillBuf_other (X := .inp) (Y := .ba) (State.reset.fillBuf .ba fun _ => 0x80#8) (fun _ => 0x01#8)
    (by decide) i).trans
    (byte_fillBuf_same State.reset .ba _ h)
/-- The two ways a buffer byte can change whatever the free draws are: a host write and a completion. -/
theorem witness_BufferByteChangesOnlyAsListed :
    (∃ t, step (scripted [.write 0x0000#16 1#8] [.host] (memWrite 0x0000#16 2#8 State.reset)) = .next t ∧
      t.byte .inp 0 ≠ (memWrite 0x0000#16 2#8 State.reset).byte .inp 0) ∧
    ∃ t, step runningA = .next t ∧ t.byte .ba 0 ≠ runningA.byte .ba 0 := by
  obtain ⟨t, ht⟩ : ∃ t, exec .runA (dropTurn runningA) = .next t := ⟨_, rfl⟩
  refine ⟨⟨_, rfl, by decide⟩, t, (step_engine rfl rfl).trans ht, ?_⟩
  rw [byte_execRunA ht (by omega), byte_funext (dropTurn_mem runningA),
    runningA_inp (by decide), runningA_ba (by omega)]
  decide
theorem witness_ErrorStateChangesOnlyAsListed :
    ∃ t, step (presenting 0x06#8 State.reset) = .next t ∧ t.errCode = .illegalCmd := ⟨_, rfl, rfl⟩
theorem witness_SequencerChangesOnlyAsListed :
    ∃ t, step (presenting 0x01#8 State.reset) = .next t ∧ t.eng ≠ State.reset.eng :=
  ⟨_, rfl, by decide⟩
theorem witness_DoneRisesOnlyAtCompletion :
    (∃ t, step (busyWith .runA false .noError) = .next t ∧ (busyWith .runA false .noError).done = false ∧
      t.done = true) ∧
    ∃ t, step (presenting 0x01#8 (idleWith true false .noError)) = .next t ∧ t.eng = .running .runA ∧
      (presenting 0x01#8 (idleWith true false .noError)).eng = .idle :=
  ⟨⟨_, rfl, rfl, rfl⟩, ⟨_, rfl, rfl, rfl⟩⟩
/-- DONE over a step: set by a completion, cleared by reset, by a STATUS write and by an acceptance, kept
by any other step. -/
theorem witness_DoneFollowsItsEvents :
    (∃ t, step (busyWith .runA false .noError) = .next t ∧ t.done = true) ∧
    (∃ t, step (scripted [] [.reset] (idleWith true false .noError)) = .next t ∧ t.done = false) ∧
    (∃ t, step (scripted [.write 0xC001#16 2#8] [.host] (idleWith true false .noError)) = .next t ∧
      t.done = false) ∧
    (∃ t, step (presenting 0x01#8 (idleWith true false .noError)) = .next t ∧ t.done = false) ∧
    ∃ t, step (presenting 0x06#8 (idleWith true false .noError)) = .next t ∧ t.done = true :=
  ⟨⟨_, rfl, rfl⟩, ⟨_, rfl, rfl⟩, ⟨_, rfl, rfl⟩, ⟨_, rfl, rfl⟩, ⟨_, rfl, rfl⟩⟩
theorem witness_RunningCommandIsUnobservable :
    (scripted [.read 0x8000#16 1] [.host] (busyWith .runA false .noError)).busy = true ∧
      nextTurn (scripted [.read 0x8000#16 1] [.host] (busyWith .runA false .noError)) = .host ∧
      ∃ t, step (scripted [.read 0x8000#16 1] [.host] (busyWith .runA false .noError)) = .next t :=
  ⟨by decide, by decide, ⟨_, rfl⟩⟩
theorem witness_CommandWriteRacesCompletion :
    (scripted [.write 0xC000#16 0x04#8] [] (busyWith .runAll false .noError)).eng = .running .runAll ∧
      (busyWith .runAll false .noError).busy = true ∧
      (scripted [.write 0xC000#16 0x04#8] [] (busyWith .runAll false .noError)).script[0]? =
        some (.write 0xC000#16 (encode .runD)) := by decide
theorem witness_BufferReadRacesCompletion :
    (busyWith .runAll false .noError).eng = .running .runAll ∧
      (busyWith .runAll false .noError).busy = true ∧ target 0x8000#16 = .buffer .out 0 ∧
      (scripted [.read 0x8000#16 2] [] (busyWith .runAll false .noError)).script[0]? =
        some (.read 0x8000#16 2) := by decide
theorem witness_AcceptedCommandCompletes :
    (scripted pollScript [.host, .host] (busyWith .runA false .noError)).eng = .running .runA ∧
      (scripted pollScript [.host, .host] (busyWith .runA false .noError)).busy = true ∧
      scriptWellFormed pollScript = true ∧ Turn.reset ∉ [Turn.host, .host] := by decide
theorem witness_DutifulHostIsNeverTooEarly :
    nextTurn (scripted pollScript [.host] (idleWith false true .cmdWhileBusy)) = .host ∧
      dutiful (idleWith false true .cmdWhileBusy) (.label (.fresh 0)) = true ∧
      (∃ t, step (scripted pollScript [.host] (idleWith false true .cmdWhileBusy)) = .next t ∧
        t.errCode = .cmdWhileBusy) ∧
      dutiful (busyWith .runA false .noError) (.write 0x0000#16 1#8) = false ∧
      dutiful (busyWith .runA false .noError) (.write 0xC000#16 1#8) = false :=
  ⟨by decide, by decide, ⟨_, rfl, rfl⟩, by decide, by decide⟩

end Sys2Proof.Machine
end

section
/-! Shared laws for the statements about one step: decoding and encoding agree, what a write reaches, the
invariant under each operation, and the sequencer and its flags over one step. -/

namespace Sys2Proof.Machine

/-! ### The command byte -/

/-- A byte is its fields Z and OP (R120). -/
theorem fieldZ_append_fieldOp (v : Byte) : fieldZ v ++ fieldOp v = v := by
  ext i hi
  simp only [fieldZ, fieldOp, BitVec.getElem_append, BitVec.getElem_extractLsb']
  split
  · simp [BitVec.getLsbD_eq_getElem hi]
  · have e : 3 + (i - 3) = i := by omega
    simp [e, BitVec.getLsbD_eq_getElem hi]

theorem fieldOp_of_decodeOp {v : Byte} {c : Instr} (h : decodeOp v = .ok c) :
    fieldOp v = opOf c := by
  revert h
  simp only [decodeOp]
  repeat' split
  all_goals intro h; cases h
  all_goals assumption

theorem encode_of_decode {v : Byte} {c : Instr} (h : decode v = .ok c) : encode c = v := by
  simp only [decode] at h
  split at h
  · next hz =>
    calc encode c = fieldZ v ++ fieldOp v := by rw [hz, fieldOp_of_decodeOp h]; rfl
      _ = v := fieldZ_append_fieldOp v
  · cases h

@[simp] theorem decode_encode (c : Instr) : decode (encode c) = .ok c := by cases c <;> rfl

/-! ### The port -/

theorem memWrite_cmd (v : Byte) (s : State) : memWrite 0xC000#16 v s = present v s := rfl

theorem memWrite_status (v : Byte) (s : State) : memWrite 0xC001#16 v s = writeStatus v s := rfl

/-- A CMD write of a command's byte while not busy is its acceptance (R150, R151). -/
theorem present_accepts {v : Byte} {c : Instr} {s : State} (hb : s.busy = false)
    (hd : decode v = .ok c) : present v s = accept c s := by
  simp [present, presentIdle, hb, hd]

@[simp] theorem writeStatus_eng (v : Byte) (s : State) : (writeStatus v s).eng = s.eng := by
  rw [writeStatus_eq]

@[simp] theorem writeStatus_busy (v : Byte) (s : State) : (writeStatus v s).busy = s.busy := by
  rw [writeStatus_eq]

@[simp] theorem writeStatus_mem (v : Byte) (s : State) : (writeStatus v s).mem = s.mem := by
  rw [writeStatus_eq]

theorem writeStatus_done (v : Byte) (s : State) :
    (writeStatus v s).done = (s.done && !v.getLsbD 1) := by rw [writeStatus_eq]

/-- What a write can do to ENG, BUSY and DONE: accept a command, clear DONE at STATUS, or nothing (R36,
R151). -/
theorem memWrite_control (a : Addr) (v : Byte) (s : State) :
    (∃ c, a = 0xC000#16 ∧ v = encode c ∧ s.busy = false ∧ memWrite a v s = accept c s) ∨
    (a = 0xC001#16 ∧ v.getLsbD 1 = true ∧ memWrite a v s = writeStatus v s) ∨
    ((memWrite a v s).eng = s.eng ∧ (memWrite a v s).busy = s.busy ∧
      (memWrite a v s).done = s.done) := by
  rcases memWrite_cases a v s with ⟨_, _, _, _, h⟩ | ⟨_, _, h⟩ | ⟨_, _, h⟩ | ⟨c, ha, hb, hd, h⟩ |
    ⟨_, _, _, h⟩ | ⟨ha, h⟩ | h
  case inr.inr.inr.inl => exact .inl ⟨c, target_cmd ha, (encode_of_decode hd).symm, hb, h⟩
  case inr.inr.inr.inr.inr.inl =>
    cases hv : v.getLsbD 1 with
    | true => exact .inr (.inl ⟨target_status ha, rfl, h⟩)
    | false =>
      have hdone : (writeStatus v s).done = s.done := by rw [writeStatus_done, hv]; simp
      exact .inr (.inr (by simp [h, hdone]))
  all_goals exact .inr (.inr (by simp [h]))

/-- A write changes at most the byte it names, to the value written, and only while not busy (R76, R78). -/
theorem memWrite_byte {a : Addr} {v : Byte} {s : State} {X : Buf} {i : Nat}
    (hne : (memWrite a v s).byte X i ≠ s.byte X i) :
    s.busy = false ∧ target a = .buffer X i ∧ (memWrite a v s).byte X i = v := by
  rcases memWrite_cases a v s with ⟨Y, j, ha, hb, h⟩ | ⟨_, _, h⟩ | ⟨_, _, h⟩ | ⟨_, _, _, _, h⟩ |
    ⟨_, _, _, h⟩ | ⟨_, h⟩ | h
  case inl =>
    rw [h] at hne ⊢
    by_cases hXY : X = Y ∧ i = j
    · obtain ⟨rfl, rfl⟩ := hXY
      exact ⟨hb, ha, byte_setByte_same s X i v⟩
    · exact absurd (byte_setByte_other s v hXY) hne
  all_goals exact absurd (byte_congr (by simp [h]) X i) hne

/-! ### A byte after the engine's and reset's turns -/

theorem byte_eq_of_cells_eq {s t : State} {X : Buf} (h : t.mem.cells X = s.mem.cells X) (i : Nat) :
    t.byte X i = s.byte X i := by simp only [State.byte, h]

/-- A completing command changes no buffer but its destinations (R75, R155). -/
theorem exec_byte_kept {c : Instr} {s t : State} (h : exec c s = .next t) {X : Buf}
    (hX : X ∉ destsOf c) (i : Nat) : t.byte X i = s.byte X i := by
  obtain ⟨m, hm, -, hkept, -⟩ := exec_spec c s
  obtain rfl : finish { s with mem := m } = t := by simpa [hm] using h
  exact byte_eq_of_cells_eq (hkept X hX) i

/-- Reset changes no buffer byte but those of an interrupted command's destinations (R321, R322). -/
theorem resetBlock_byte {s : State} {X : Buf} {i : Nat}
    (hne : (resetBlock s).byte X i ≠ s.byte X i) : ∃ c, s.eng = .running c ∧ X ∈ destsOf c := by
  cases he : s.eng with
  | idle => exact absurd (byte_congr (by simp [resetBlock_idle he]) X i) hne
  | running c =>
    refine ⟨c, rfl, by_contra fun hX => hne ?_⟩
    obtain ⟨m, hm, -, hkept, -⟩ := resetBlock_running he
    rw [hm]
    exact byte_eq_of_cells_eq (hkept X hX) i

/-! ### The host's and the idle engine's turns -/

theorem step_hostWrite {s : State} {a : Addr} {v : Byte} (h : nextTurn s = .host)
    (hst : s.script[s.hostPc]? = some (.write a v)) :
    step s = .next (hostWrite a v (dropTurn s)) := by
  simp [step_host h, hostTurn, hst, hostStmt]

/-- The acceptance of a command, as a step (R150, R151). -/
theorem step_acceptance {s : State} {v : Byte} {c : Instr} (ht : nextTurn s = .host)
    (hst : s.script[s.hostPc]? = some (.write 0xC000#16 v)) (hb : s.busy = false)
    (hd : decode v = .ok c) : step s = .next (hostNext (accept c (dropTurn s))) := by
  rw [step_hostWrite ht hst, hostWrite, memWrite_cmd, present_accepts (s := dropTurn s) hb hd]

theorem step_engine_idle {s : State} (h : nextTurn s = .engine) (he : s.eng = .idle) :
    step s = .next (dropTurn s) := by
  simp [step, h, takeTurn, engineTurn, he]

/-! ### ENG, BUSY and DONE over one step -/

/-- Everything one step can do to the sequencer, BUSY and DONE (R36, R40, R151, R155, R320). -/
inductive ControlStep (s t : State) : Prop
  | reset (turn : nextTurn s = .reset) (eng : t.eng = .idle) (busy : t.busy = false)
      (done : t.done = false)
  | completion (c : Instr) (turn : nextTurn s = .engine) (running : s.eng = .running c)
      (eng : t.eng = .idle) (busy : t.busy = false) (done : t.done = true)
  | acceptance (c : Instr) (turn : nextTurn s = .host) (idle : s.busy = false)
      (stmt : s.script[s.hostPc]? = some (.write 0xC000#16 (encode c)))
      (eng : t.eng = .running c) (busy : t.busy = true) (done : t.done = false)
  | statusClear (v : Byte) (turn : nextTurn s = .host)
      (stmt : s.script[s.hostPc]? = some (.write 0xC001#16 v)) (bit : v.getLsbD 1 = true)
      (eng : t.eng = s.eng) (busy : t.busy = s.busy) (done : t.done = false)
  | kept (eng : t.eng = s.eng) (busy : t.busy = s.busy) (done : t.done = s.done)

theorem resetBlock_control (s : State) :
    (resetBlock s).eng = .idle ∧ (resetBlock s).busy = false ∧ (resetBlock s).done = false :=
  ⟨rfl, rfl, rfl⟩

theorem exec_control {c : Instr} {s t : State} (h : exec c s = .next t) :
    t.eng = .idle ∧ t.busy = false ∧ t.done = true := by
  obtain ⟨m, hm, -⟩ := exec_spec c s
  obtain rfl : finish { s with mem := m } = t := by simpa [hm] using h
  exact ⟨rfl, rfl, rfl⟩

theorem controlStep_hostWrite {s : State} {a : Addr} {v : Byte} (ht : nextTurn s = .host)
    (hst : s.script[s.hostPc]? = some (.write a v)) :
    ControlStep s (hostWrite a v (dropTurn s)) := by
  rcases memWrite_control a v (dropTurn s) with ⟨c, rfl, rfl, hb, h⟩ | ⟨rfl, hv, h⟩ |
    ⟨he, hb, hd⟩
  · exact .acceptance c ht hb hst (by simp [hostWrite, h]) (by simp [hostWrite, h])
      (by simp [hostWrite, h])
  · exact .statusClear v ht hst hv (by simp [hostWrite, h]) (by simp [hostWrite, h])
      (by simp [hostWrite, h, writeStatus_done, hv])
  · exact .kept he hb hd

theorem step_control {s t : State} (h : step s = .next t) : ControlStep s t := by
  rcases step_cases h with ⟨ht, rfl⟩ | ⟨_, _, rfl⟩ | ⟨c, ht, hr, hex⟩ | ⟨ht, hh⟩
  · obtain ⟨he, hb, hd⟩ := resetBlock_control (dropTurn s)
    exact .reset ht he hb hd
  · exact .kept rfl rfl rfl
  · obtain ⟨he, hb, hd⟩ := exec_control hex
    exact .completion c ht hr he hb hd
  · rcases hostTurn_cases hh with ⟨a, v, hst, rfl⟩ | ⟨a, x, _, rfl⟩ | ⟨k, rfl⟩
    · exact controlStep_hostWrite ht hst
    · obtain ⟨_, _, _, _, _, _, he, hb, hd⟩ := memRead_keeps a (dropTurn s)
      exact .kept he hb hd
    · exact .kept rfl rfl rfl

/-! ### The invariant under each operation -/

theorem State.inv_iff (s : State) :
    s.inv = true ↔ (s.busy = true ↔ s.eng ≠ .idle) ∧ ¬(s.done = true ∧ s.busy = true) ∧
      (s.err = true ↔ s.errCode ≠ .noError) ∧ s.mem.wf = true ∧
      cellsRiseFrom 0 s.temps = true := by
  simp only [State.inv, State.busyMatches, State.doneNotBusy, State.errMatches, Bool.and_eq_true,
    beq_iff_eq, Bool.eq_iff_iff (b := decide _), decide_eq_true_eq, Bool.not_eq_true',
    Bool.and_eq_false_iff, and_assoc, Bool.not_eq_true, not_and_or]

/-- The invariant speaks of neither the host's position nor the turns. -/
@[simp] theorem inv_setHostPc (s : State) (k : Nat) : State.inv { s with hostPc := k } = s.inv := rfl
@[simp] theorem inv_hostNext (s : State) : (hostNext s).inv = s.inv := rfl
@[simp] theorem inv_dropTurn (s : State) : (dropTurn s).inv = s.inv := rfl

section
variable {s : State} (h : s.inv = true)
include h

theorem inv_setMem {m : Memory} (hm : m.wf = true) : State.inv { s with mem := m } = true := by
  obtain ⟨hbusy, hdone, herr, -, htemps⟩ := s.inv_iff.mp h
  exact (State.inv_iff _).mpr ⟨hbusy, hdone, herr, hm, htemps⟩

theorem inv_setByte {X : Buf} {i : Nat} (v : Byte) (hi : i < Config.bufLen X) :
    (s.setByte X i v).inv = true := by
  obtain ⟨-, -, -, hmem, -⟩ := s.inv_iff.mp h
  exact inv_setMem h (wf_setByte v hi hmem)

theorem inv_setTemp (x : Temp) (v : Byte) : (s.setTemp x v).inv = true := by
  obtain ⟨hbusy, hdone, herr, hmem, htemps⟩ := s.inv_iff.mp h
  exact (State.inv_iff _).mpr ⟨hbusy, hdone, herr, hmem, cellsRiseFrom_set v x.zero_le htemps⟩

theorem inv_raiseError {code : ErrCode} (hc : code ≠ .noError) : (raiseError code s).inv = true := by
  obtain ⟨hbusy, hdone, -, hmem, htemps⟩ := s.inv_iff.mp h
  exact (State.inv_iff _).mpr ⟨hbusy, hdone, by simp [hc], hmem, htemps⟩

theorem inv_accept (c : Instr) : (accept c s).inv = true := by
  obtain ⟨-, -, herr, hmem, htemps⟩ := s.inv_iff.mp h
  exact (State.inv_iff _).mpr ⟨by simp, by simp, herr, hmem, htemps⟩

theorem inv_finish : (finish s).inv = true := by
  obtain ⟨-, -, herr, hmem, htemps⟩ := s.inv_iff.mp h
  exact (State.inv_iff _).mpr ⟨by simp, by simp, herr, hmem, htemps⟩

theorem inv_clearDoneIf (v : Byte) : (clearDoneIf v s).inv = true := by
  obtain ⟨hbusy, -, herr, hmem, htemps⟩ := s.inv_iff.mp h
  rw [clearDoneIf]
  split
  · exact (State.inv_iff _).mpr ⟨hbusy, by simp, herr, hmem, htemps⟩
  · exact h

theorem inv_clearErrIf (v : Byte) : (clearErrIf v s).inv = true := by
  obtain ⟨hbusy, hdone, -, hmem, htemps⟩ := s.inv_iff.mp h
  rw [clearErrIf]
  split
  · exact (State.inv_iff _).mpr ⟨hbusy, hdone, by simp, hmem, htemps⟩
  · exact h

theorem inv_resetFlags : (resetFlags s).inv = true := by
  obtain ⟨-, -, -, hmem, htemps⟩ := s.inv_iff.mp h
  exact (State.inv_iff _).mpr ⟨by simp, by simp, by simp, hmem, htemps⟩

theorem inv_resetBlock : (resetBlock s).inv = true := by
  cases he : s.eng with
  | idle => rw [resetBlock_idle he]; exact inv_resetFlags h
  | running c =>
    obtain ⟨-, -, -, hmem, -⟩ := s.inv_iff.mp h
    obtain ⟨m, hm, hwf, -⟩ := resetBlock_running he
    rw [hm]
    exact inv_resetFlags (inv_setMem h (hwf hmem))

theorem inv_exec {c : Instr} {t : State} (hex : exec c s = .next t) : t.inv = true := by
  obtain ⟨-, -, -, hmem, -⟩ := s.inv_iff.mp h
  obtain ⟨m, hm, hwf, -⟩ := exec_spec c s
  obtain rfl : finish { s with mem := m } = t := by simpa [hm] using hex
  exact inv_finish (inv_setMem h (hwf hmem))

theorem inv_memWrite (a : Addr) (v : Byte) : (memWrite a v s).inv = true := by
  rcases memWrite_cases a v s with ⟨X, i, ha, _, e⟩ | ⟨_, _, e⟩ | ⟨_, _, e⟩ | ⟨c, _, _, _, e⟩ |
    ⟨_, _, _, e⟩ | ⟨_, e⟩ | e <;> rw [e]
  · exact inv_setByte h v (target_buffer_lt ha).1
  · exact inv_raiseError h (by decide)
  · exact inv_raiseError h (by decide)
  · exact inv_accept h c
  · exact inv_raiseError h (by decide)
  · exact inv_clearErrIf (inv_clearDoneIf h v) v
  · exact h

theorem inv_memRead (a : Addr) : (memRead a s).2.inv = true := by
  rcases memRead_state a s with e | ⟨_, _, e⟩ <;> rw [e]
  · exact h
  · exact inv_raiseError h (by decide)

theorem inv_hostTurn {t : State} (hh : hostTurn s = .next t) : t.inv = true := by
  rcases hostTurn_cases hh with ⟨a, v, _, rfl⟩ | ⟨a, x, _, rfl⟩ | ⟨k, rfl⟩
  · exact inv_memWrite h a v
  · exact inv_setTemp (inv_memRead h a) x _
  · exact h

end

end Sys2Proof.Machine
end

section
/-! The state family's statements: the invariant, who changes a buffer byte, ENG and DONE, how a command
comes to run, and the power-on values. -/

namespace Sys2Proof.Machine

/-- Settles O45: each of the four kinds of turn keeps the invariant, operation by operation. -/
theorem stepKeepsTheInvariant : Obligations.StepKeepsTheInvariant := by
  intro s t h hstep
  have hdrop : (dropTurn s).inv = true := h
  rcases step_cases hstep with ⟨_, rfl⟩ | ⟨_, _, rfl⟩ | ⟨c, _, _, hex⟩ | ⟨_, hh⟩
  · exact inv_resetBlock hdrop
  · exact hdrop
  · exact inv_exec hdrop hex
  · exact inv_hostTurn hdrop hh

/-- Settles O47: only a host write, a completion or an interrupting reset reaches a buffer. -/
theorem bufferByteChangesOnlyAsListed : Obligations.BufferByteChangesOnlyAsListed := by
  intro s t X i hstep hne
  rcases step_cases hstep with ⟨ht, rfl⟩ | ⟨_, _, rfl⟩ | ⟨c, ht, hr, hex⟩ | ⟨ht, hh⟩
  · exact .inr (.inr ⟨ht, resetBlock_byte (s := dropTurn s) hne⟩)
  · exact absurd rfl hne
  · have hX : X ∈ destsOf c := by_contra fun hX => hne (exec_byte_kept hex hX i)
    exact .inr (.inl ⟨ht, c, hr, hX⟩)
  · rcases hostTurn_cases hh with ⟨a, v, hst, rfl⟩ | ⟨a, x, _, rfl⟩ | ⟨k, rfl⟩
    · obtain ⟨hb, ha, hv⟩ := memWrite_byte (s := dropTurn s) hne
      exact .inl ⟨ht, hb, a, v, hst, ha, hv⟩
    · obtain ⟨_, _, _, _, _, hmem, _⟩ := memRead_keeps a (dropTurn s)
      exact absurd (byte_congr hmem X i) hne
    · exact absurd rfl hne

/-- Settles O49: of the ways a step moves ENG, those that change it. -/
theorem sequencerChangesOnlyAsListed : Obligations.SequencerChangesOnlyAsListed := by
  intro s t hstep hne
  cases step_control hstep with
  | reset turn eng _ _ => exact .inr (.inr ⟨turn, eng⟩)
  | completion c turn running eng _ _ => exact .inr (.inl ⟨turn, ⟨c, running⟩, eng⟩)
  | acceptance c turn idle stmt eng _ _ => exact .inl ⟨turn, idle, c, stmt, eng⟩
  | statusClear _ _ _ _ eng _ _ => exact absurd eng hne
  | kept eng _ _ => exact absurd eng hne

/-- Settles O50: only a completion leaves DONE set where it was clear, and the one way from Idle to
Running is an acceptance. -/
theorem doneRisesOnlyAtCompletion : Obligations.DoneRisesOnlyAtCompletion := by
  refine ⟨fun s t hstep hs ht => ?_, fun s t hstep ⟨c, ht, hs⟩ => ?_⟩
  · cases step_control hstep with
    | completion c turn running eng busy _ => exact ⟨turn, ⟨c, running⟩, eng, busy⟩
    | reset _ _ _ done | acceptance _ _ _ _ _ _ done | statusClear _ _ _ _ _ _ done =>
      simp [done] at ht
    | kept _ _ done => simp [done, hs] at ht
  · cases step_control hstep with
    | acceptance _ _ _ _ _ _ done => exact done
    | reset _ eng _ _ | completion _ _ _ eng _ _ => simp [eng] at ht
    | statusClear _ _ _ _ eng _ _ | kept eng _ _ => simp [eng, hs] at ht

/-- Settles O51: the completing and the clearing events by the step each takes, every other step by the
cases of what a step does to DONE. -/
theorem doneFollowsItsEvents : Obligations.DoneFollowsItsEvents := by
  intro s t hstep
  refine ⟨fun ⟨ht, c, hr⟩ => ?_, fun hclears => ?_, fun hcompletes hclears => ?_⟩
  · rw [step_engine ht hr] at hstep
    obtain ⟨-, -, hdone⟩ := exec_control hstep
    exact hdone
  · rcases hclears with ht | ⟨ht, ⟨v, hst, hv⟩ | ⟨hb, c, hst⟩⟩
    · rw [step_reset ht] at hstep; cases hstep
      rfl
    · rw [step_hostWrite ht hst] at hstep; cases hstep
      simp [hostWrite, memWrite_status, writeStatus_done, hv]
    · rw [step_acceptance ht hst hb (decode_encode c)] at hstep; cases hstep
      rfl
  · cases step_control hstep with
    | reset turn _ _ _ => exact absurd (.inl turn) hclears
    | completion c turn running _ _ _ => exact absurd ⟨turn, c, running⟩ hcompletes
    | acceptance c turn idle stmt _ _ _ =>
      exact absurd (.inr ⟨turn, .inr ⟨idle, c, stmt⟩⟩) hclears
    | statusClear v turn stmt bit _ _ _ =>
      exact absurd (.inr ⟨turn, .inl ⟨v, stmt, bit⟩⟩) hclears
    | kept _ _ done => exact done

/-- Settles O13: the host's acceptance, the engine's two turns, and the word `withFetchWord` loads. -/
theorem stepRunsTheDecodedCommand : Obligations.StepRunsTheDecodedCommand := by
  refine ⟨fun s v c ht hst hb hd => step_acceptance ht hst hb hd, fun s c => step_engine,
    fun s => step_engine_idle, fun s nbits w c hw => ?_⟩
  have hload : s.withFetchWord nbits w = loadCommand c s := by simp [State.withFetchWord, hw]
  rw [hload]
  exact step_engine rfl rfl

/-- Settles O33: the registers by the port's map, the buffers because nothing is listed at reset. -/
theorem powerOnValues : Obligations.PowerOnValues := by
  refine ⟨rfl, rfl, rfl, rfl, rfl, fun X i => ?_⟩
  cases X <;> rfl

/-- Settles O46: nothing runs, no error is recorded, and no byte or temporary is listed. -/
theorem resetMeetsTheInvariant : Obligations.ResetMeetsTheInvariant :=
  State.reset.inv_iff.mpr ⟨by decide, by decide, by decide, wf_reset, rfl⟩

end Sys2Proof.Machine
end

section
/-! Shared laws for the statements about the host port: the address map both ways, each transaction by what
its address reaches, and a host turn under another memory. -/

namespace Sys2Proof.Machine

/-! ### The address map -/

/-- Each buffer's row of R71 stands below the register page. -/
theorem bufEnd_le (X : Buf) : Config.bufBase X + Config.bufLen X ≤ 0xC000 := by
  cases X <;> decide

/-- Every address below the register page reaches a buffer byte (R71). -/
theorem target_of_lt {a : Addr} (h : a.toNat < 0xC000) : ∃ X i, target a = .buffer X i := by
  simp only [target]
  repeat' split
  all_goals first | omega | exact ⟨_, _, rfl⟩

/-- Byte `i` of a buffer stands at the buffer's base plus `i`: the rows of R71 one by one. -/
theorem target_of_base_add {a : Addr} {X : Buf} {i : Nat} (hi : i < Config.bufLen X)
    (ha : a.toNat = Config.bufBase X + i) : target a = .buffer X i := by
  cases X
  all_goals
    simp only [Config.bufLen, Config.bufBase, Config.L_eq, Config.LOUT_eq] at hi ha
    simp (disch := omega) only [target, if_pos, if_neg, Target.buffer.injEq, true_and]
    omega

theorem target_eq_buffer_iff (a : Addr) (X : Buf) (i : Nat) :
    target a = .buffer X i ↔ i < Config.bufLen X ∧ a.toNat = Config.bufBase X + i := by
  refine ⟨fun h => ?_, fun ⟨hi, ha⟩ => target_of_base_add hi ha⟩
  obtain ⟨hi, ha, -⟩ := target_buffer_lt h
  exact ⟨hi, ha⟩

/-- The addresses of a buffer are its row of R71. -/
theorem exists_target_buffer_iff (a : Addr) (X : Buf) :
    (∃ i, target a = .buffer X i) ↔
      Config.bufBase X ≤ a.toNat ∧ a.toNat < Config.bufBase X + Config.bufLen X := by
  simp only [target_eq_buffer_iff]
  refine ⟨fun ⟨i, hi, ha⟩ => by omega, fun h => ⟨a.toNat - Config.bufBase X, by omega, by omega⟩⟩

theorem target_ne_buffer_iff (a : Addr) :
    (∀ X i, target a ≠ .buffer X i) ↔ 0xC000 ≤ a.toNat := by
  refine ⟨fun h => ?_, fun h X i ht => ?_⟩
  · by_contra hlt
    obtain ⟨X, i, ht⟩ := target_of_lt (Nat.lt_of_not_le hlt)
    exact h X i ht
  · obtain ⟨-, -, hlt⟩ := target_buffer_lt ht
    omega

theorem target_of_reserved {a : Addr} (h : 0xC004 ≤ a.toNat) : target a = .reserved := by
  simp (disch := omega) only [target, if_neg]

/-- Address bits 15:13 are the 8 KiB row. -/
theorem addrBits13_eq_iff (a : Addr) (r : BitVec 3) :
    a.extractLsb' 13 3 = r ↔ a.toNat / 8192 = r.toNat := by
  have ha := a.isLt
  rw [← BitVec.toNat_inj, BitVec.extractLsb'_toNat, Nat.shiftRight_eq_div_pow]
  omega

/-- Address bits 15:14 are the 16 KiB row. -/
theorem addrBits14_eq_iff (a : Addr) (r : BitVec 2) :
    a.extractLsb' 14 2 = r ↔ a.toNat / 16384 = r.toNat := by
  have ha := a.isLt
  rw [← BitVec.toNat_inj, BitVec.extractLsb'_toNat, Nat.shiftRight_eq_div_pow]
  omega

/-- The upper address bits that select the rows of R71. -/
theorem addrBits_select (a : Addr) :
    (a.extractLsb' 13 3 = 0#3 ↔ ∃ i, target a = .buffer .inp i) ∧
    (a.extractLsb' 13 3 = 1#3 ↔ ∃ i, target a = .buffer .ba i) ∧
    (a.extractLsb' 13 3 = 2#3 ↔ ∃ i, target a = .buffer .bb i) ∧
    (a.extractLsb' 13 3 = 3#3 ↔ ∃ i, target a = .buffer .bc i) ∧
    (a.extractLsb' 14 2 = 2#2 ↔ ∃ i, target a = .buffer .out i) ∧
    (a.extractLsb' 14 2 = 3#2 ↔ ∀ X i, target a ≠ .buffer X i) := by
  have ha := a.isLt
  simp only [addrBits13_eq_iff, addrBits14_eq_iff, exists_target_buffer_iff, target_ne_buffer_iff,
    Config.bufBase, Config.bufLen, Config.L_eq, Config.LOUT_eq, BitVec.toNat_ofNat]
  omega

/-- `X+i` is the base plus `i` wherever that is a 16-bit address (R71, R125). -/
theorem bufAddr_toNat {X : Buf} {i : Nat} (h : Config.bufBase X + i < 0x10000) :
    (bufAddr X i).toNat = Config.bufBase X + i := by
  rw [bufAddr, BitVec.toNat_ofNat, Nat.mod_eq_of_lt h]

theorem target_bufAddr {X : Buf} {i : Nat} (hi : i < Config.bufLen X) :
    target (bufAddr X i) = .buffer X i := by
  have hend := bufEnd_le X
  exact target_of_base_add hi (bufAddr_toNat (by omega))

/-! ### A transaction by what its address reaches -/

section
variable {a : Addr} {X : Buf} {i : Nat} {s : State}

theorem memRead_buffer_idle (ht : target a = .buffer X i) (hb : s.busy = false) :
    memRead a s = (s.byte X i, s) := by
  simp [memRead, ht, readBuffer, hb]

theorem memRead_buffer_busy (ht : target a = .buffer X i) (hb : s.busy = true) :
    memRead a s = (0x00, raiseError .accessWhileBusy s) := by
  simp [memRead, ht, readBuffer, hb]

theorem memWrite_buffer_idle (ht : target a = .buffer X i) (hb : s.busy = false) (v : Byte) :
    memWrite a v s = s.setByte X i v := by
  simp [memWrite, ht, writeBuffer, hb]

theorem memWrite_buffer_busy (ht : target a = .buffer X i) (hb : s.busy = true) (v : Byte) :
    memWrite a v s = raiseError .accessWhileBusy s := by
  simp [memWrite, ht, writeBuffer, hb]

theorem memRead_reserved (ht : target a = .reserved) : memRead a s = (0x00, s) := by
  simp [memRead, ht]

theorem memWrite_reserved (ht : target a = .reserved) (v : Byte) : memWrite a v s = s := by
  simp [memWrite, ht]

theorem present_busy (hb : s.busy = true) (v : Byte) :
    present v s = raiseError .cmdWhileBusy s := by
  simp [present, hb]

/-- A write while busy reaches no buffer (R78). -/
theorem memWrite_mem_of_busy (hb : s.busy = true) (a : Addr) (v : Byte) :
    (memWrite a v s).mem = s.mem := by
  rcases memWrite_cases a v s with ⟨_, _, _, hidle, _⟩ | ⟨_, _, h⟩ | ⟨_, _, h⟩ | ⟨_, _, _, _, h⟩ |
    ⟨_, _, _, h⟩ | ⟨_, h⟩ | h
  case inl => simp [hb] at hidle
  all_goals simp [h]

/-- Outside the buffers a read changes nothing (R73, R74). -/
theorem memRead_state_of_ge (h : 0xC000 ≤ a.toNat) : (memRead a s).2 = s := by
  rcases memRead_state a s with e | ⟨_, hlt, _⟩
  · exact e
  · omega

end

/-! ### The STATUS byte -/

/-- The STATUS byte as a sum of its flags (R36, R73). -/
theorem readStatus_eq_ofNat (s : State) :
    readStatus s = BitVec.ofNat 8 (4 * s.err.toNat + 2 * s.done.toNat + s.busy.toNat) := by
  rw [readStatus]
  cases s.err <;> cases s.done <;> cases s.busy <;> rfl

/-- Bits 7:1 of the STATUS byte are the reserved bits, ERR and DONE. -/
theorem readStatus_bits71 (s : State) :
    (readStatus s).extractLsb' 1 7 = (0#5 ++ flagBit s.err) ++ flagBit s.done := by
  rw [readStatus]
  cases s.err <;> cases s.done <;> cases s.busy <;> rfl

/-- A STATUS write with bits 1 and 2 clear does nothing (R36). -/
theorem writeStatus_of_bits_clear {v : Byte} (h1 : v.getLsbD 1 = false) (h2 : v.getLsbD 2 = false)
    (s : State) : writeStatus v s = s := by
  simp only [writeStatus, clearDoneIf, clearErrIf, h1, h2, Bool.false_eq_true, if_false]

/-! ### Outside the buffers, BUSY does not matter -/

section
variable {a : Addr} (ha : 0xC000 ≤ a.toNat) (b : Bool) (s : State)
include ha

theorem memRead_value_setBusy (hne : a ≠ 0xC001#16) :
    (memRead a { s with busy := b }).1 = (memRead a s).1 := by
  cases ht : target a with
  | buffer X i => exact absurd ht ((target_ne_buffer_iff a).mpr ha X i)
  | status => exact absurd (target_status ht) hne
  | _ => simp only [memRead, ht, readErrcode]

theorem memRead_bits71_setBusy :
    (memRead a { s with busy := b }).1.extractLsb' 1 7 = (memRead a s).1.extractLsb' 1 7 := by
  by_cases hst : a = 0xC001#16
  · subst hst
    exact (readStatus_bits71 { s with busy := b }).trans (readStatus_bits71 s).symm
  · rw [memRead_value_setBusy ha b s hst]

theorem memWrite_setBusy (v : Byte) (hne : a ≠ 0xC000#16) :
    memWrite a v { s with busy := b } = { memWrite a v s with busy := b } := by
  cases ht : target a with
  | buffer X i => exact absurd ht ((target_ne_buffer_iff a).mpr ha X i)
  | cmd => exact absurd (target_cmd ht) hne
  | status => simp only [memWrite, ht, writeStatus_eq]
  | _ => simp only [memWrite, ht]

end

/-! ### A busy host turn under another memory -/

section
variable {s : State} (hb : s.busy = true) (m : Memory)
include hb

theorem memRead_setMem (a : Addr) :
    memRead a { s with mem := m } = ((memRead a s).1, { (memRead a s).2 with mem := m }) := by
  cases ht : target a with
  | buffer X i =>
    rw [memRead_buffer_busy ht hb, memRead_buffer_busy (s := { s with mem := m }) ht hb]
    rfl
  | _ => simp only [memRead, ht, readStatus, readErrcode]

theorem memWrite_setMem (a : Addr) (v : Byte) :
    memWrite a v { s with mem := m } = { memWrite a v s with mem := m } := by
  cases ht : target a with
  | buffer X i =>
    rw [memWrite_buffer_busy ht hb, memWrite_buffer_busy (s := { s with mem := m }) ht hb]
    rfl
  | cmd =>
    simp only [memWrite, ht]
    rw [present_busy hb, present_busy (s := { s with mem := m }) hb]
    rfl
  | status => simp only [memWrite, ht, writeStatus_eq]
  | _ => simp only [memWrite, ht]

theorem hostWrite_setMem (a : Addr) (v : Byte) :
    hostWrite a v { s with mem := m } = { hostWrite a v s with mem := m } := by
  rw [hostWrite, memWrite_setMem hb]
  rfl

theorem hostRead_setMem (a : Addr) (x : Temp) :
    hostRead a x { s with mem := m } = { hostRead a x s with mem := m } := by
  rw [hostRead, memRead_setMem hb]
  rfl

end

/-- A jump of the host looks at its script and temporaries alone (R125). -/
theorem hostJumpIf_setMem {b : Bool} {l : Label} {s t : State} (m : Memory)
    (h : hostJumpIf b l s = .next t) :
    hostJumpIf b l { s with mem := m } = .next { t with mem := m } := by
  cases b with
  | false => cases h; rfl
  | true =>
    simp only [hostJumpIf, hostJump, if_true] at h ⊢
    cases hl : labelAt l s.script with
    | some k => rw [hl] at h; cases h; rfl
    | none => rw [hl] at h; cases h

section
variable {s t : State} (hb : s.busy = true)
include hb

theorem hostStmt_setMem (m : Memory) {st : Stmt} (h : hostStmt st s = .next t) :
    hostStmt st { s with mem := m } = .next { t with mem := m } := by
  cases st with
  | write a v => cases h; exact congrArg _ (hostWrite_setMem hb m a v)
  | read a x => cases h; exact congrArg _ (hostRead_setMem hb m a x)
  | label l => cases h; rfl
  | jz x mask l => exact hostJumpIf_setMem m h
  | jnz x mask l => exact hostJumpIf_setMem m h
  | halt => cases h; rfl

theorem hostTurn_setMem (m : Memory) (h : hostTurn s = .next t) :
    hostTurn { s with mem := m } = .next { t with mem := m } := by
  simp only [hostTurn] at h ⊢
  cases hst : s.script[s.hostPc]? with
  | some st => rw [hst] at h; exact hostStmt_setMem hb m h
  | none => rw [hst] at h; cases h; rfl

theorem hostTurn_mem_of_busy (h : hostTurn s = .next t) : t.mem = s.mem := by
  rcases hostTurn_cases h with ⟨a, v, _, rfl⟩ | ⟨a, x, _, rfl⟩ | ⟨k, rfl⟩
  · exact memWrite_mem_of_busy hb a v
  · obtain ⟨_, _, _, _, _, hmem, _⟩ := memRead_keeps a s
    exact hmem
  · rfl

end

/-! ### The duty of R90 and R324 -/

/-- A host is told it came too early: CMD_WHILE_BUSY or ACCESS_WHILE_BUSY. -/
def ErrCode.tooEarly (e : ErrCode) : Prop := e = .cmdWhileBusy ∨ e = .accessWhileBusy

theorem dutiful_write_target {a : Addr} {v : Byte} {s : State}
    (hd : dutiful s (.write a v) = true) (hb : s.busy = true) :
    target a ≠ .cmd ∧ ∀ X i, target a ≠ .buffer X i := by
  simp only [dutiful, hb, Bool.not_true, Bool.false_or, Bool.or_eq_true, decide_eq_true_eq] at hd
  rcases hd with ((h | h) | h) | h <;> simp [h]

theorem writeStatus_errCode (v : Byte) (s : State) :
    (writeStatus v s).errCode = if v.getLsbD 2 then .noError else s.errCode := by
  rw [writeStatus_eq]

theorem memWrite_dutiful_errCode {a : Addr} {v : Byte} {s : State}
    (hd : dutiful s (.write a v) = true) (he : (memWrite a v s).errCode.tooEarly) :
    (memWrite a v s).errCode = s.errCode := by
  rcases memWrite_cases a v s with ⟨_, _, _, _, h⟩ | ⟨hlt, hb, _⟩ | ⟨hcmd, hb, _⟩ | ⟨_, _, _, _, h⟩ |
    ⟨_, _, _, h⟩ | ⟨_, h⟩ | h
  · rw [h, State.setByte_errCode]
  · obtain ⟨X, i, ht⟩ := target_of_lt hlt
    obtain ⟨-, hbuf⟩ := dutiful_write_target hd hb
    exact absurd ht (hbuf X i)
  · obtain ⟨hne, -⟩ := dutiful_write_target hd hb
    exact absurd hcmd hne
  · rw [h, accept_errCode]
  · simp [h, ErrCode.tooEarly] at he
  · rw [h, writeStatus_errCode] at he ⊢
    split at he
    · simp [ErrCode.tooEarly] at he
    · next hv => rw [if_neg hv]
  · rw [h]

theorem memRead_dutiful {a : Addr} {x : Temp} {s : State}
    (hd : dutiful s (.read a x) = true) : (memRead a s).2 = s := by
  rcases memRead_state a s with h | ⟨hb, hlt, _⟩
  · exact h
  · simp only [dutiful, hb, Bool.not_true, Bool.false_or, decide_eq_true_eq] at hd
    omega

/-! ### Completion and expansion -/

/-- A command's frame, from what executing it can do (R155, R158). -/
theorem exec_frame {c : Instr} {s t : State} (h : exec c s = .next t) :
    completedFrom s t ∧ keptOutside (destsOf c) s t ∧ environmentKept s t := by
  have hkept : keptOutside (destsOf c) s t := fun X hX i => exec_byte_kept h hX i
  obtain ⟨m, hm, -⟩ := exec_spec c s
  obtain rfl : finish { s with mem := m } = t := by simpa [hm] using h
  exact ⟨⟨rfl, rfl, rfl, rfl, rfl⟩, hkept, ⟨rfl, rfl, rfl, rfl, rfl⟩⟩

theorem expandFrom_eq_flatten (k : Nat) (src : List SrcStmt) :
    expandFrom k src = (src.mapIdx fun j => expandStmt (k + j)).flatten := by
  induction src generalizing k with
  | nil => rfl
  | cons st src ih =>
    simp only [expandFrom, ih, List.mapIdx_cons, List.flatten_cons, Nat.add_zero,
      Nat.add_assoc, Nat.add_comm 1]

end Sys2Proof.Machine
end

section
/-! The memory family's statements: the address map, what each transaction does and leaves, what a busy
host can see, a command's frame, and the host's pseudo-statements. -/

namespace Sys2Proof.Machine

/-- Settles O52: while busy no statement of the host reads or writes a buffer. -/
theorem runningCommandIsUnobservable : Obligations.RunningCommandIsUnobservable := by
  intro s t m hb ht hstep
  rw [step_host ht] at hstep
  have hother : nextTurn { s with mem := m } = .host := ht
  refine ⟨hostTurn_mem_of_busy (s := dropTurn s) hb hstep, ?_⟩
  rw [step_host hother]
  exact hostTurn_setMem (s := dropTurn s) hb m hstep

/-- Settles O4: the rows from their bases, the bits from the rows. -/
theorem addressMapRows : Obligations.AddressMapRows := by
  refine ⟨fun i hi => ?_, fun i hi => target_bufAddr (X := .ba) hi,
    fun i hi => target_bufAddr (X := .bb) hi, fun i hi => target_bufAddr (X := .bc) hi,
    fun i hi => target_bufAddr (X := .out) hi, rfl, rfl, rfl, rfl, fun a => target_of_reserved,
    addrBits_select⟩
  simpa [bufAddr, Config.bufBase] using target_bufAddr (X := .inp) hi

/-- Settles O5: a buffer's byte by its address, and the address by the byte. -/
theorem bufferByteHasOneAddress : Obligations.BufferByteHasOneAddress := target_eq_buffer_iff

/-- Settles O8: the idle read and write are the state's own byte and byte update. -/
theorem idleBufferAccess : Obligations.IdleBufferAccess := by
  intro a X i v s hb ht
  rw [memRead_buffer_idle ht hb, memWrite_buffer_idle ht hb]
  exact ⟨rfl, byte_setByte_same s X i v, fun Y j hne => byte_setByte_other s v hne, rfl⟩

/-- Settles O10: no register or reserved access but a CMD write tests BUSY, and a STATUS read shows it in
bit 0 alone. -/
theorem registerAccessIgnoresBusy : Obligations.RegisterAccessIgnoresBusy := by
  intro a v b s ha
  exact ⟨memRead_value_setBusy ha b s, memRead_bits71_setBusy ha b s, memRead_state_of_ge ha,
    memWrite_setBusy ha b s v⟩

/-- Settles O11: of everything a transaction can do, what is not listed leaves the state alone. -/
theorem onlyListedAccessesHaveSideEffects : Obligations.OnlyListedAccessesHaveSideEffects := by
  refine ⟨fun a s hne => ?_, fun a v s hne => ?_⟩
  · rcases memRead_state a s with h | ⟨hb, hlt, _⟩
    · exact absurd h hne
    · exact ⟨hb, hlt⟩
  · rcases memWrite_cases a v s with ⟨X, i, ha, _⟩ | ⟨hlt, _⟩ | ⟨ha, _⟩ | ⟨_, ha, _⟩ | ⟨ha, _⟩ |
      ⟨ha, h⟩ | h
    · obtain ⟨-, -, hlt⟩ := target_buffer_lt ha
      exact .inl hlt
    · exact .inl hlt
    · exact .inr (.inl (target_cmd ha))
    · exact .inr (.inl (target_cmd ha))
    · exact .inr (.inl (target_cmd ha))
    · refine .inr (.inr ⟨target_status ha, ?_⟩)
      by_contra hbits
      obtain ⟨h1, h2⟩ : v.getLsbD 1 = false ∧ v.getLsbD 2 = false := by simpa using hbits
      exact hne (h.trans (writeStatus_of_bits_clear h1 h2 s))
    · exact absurd h hne

/-- Settles O14: executing a command answers memory changed in its destinations, then `finish`. -/
theorem everyCommandCompletesWithItsFrame : Obligations.EveryCommandCompletesWithItsFrame := by
  intro c s
  obtain ⟨m, hm, -⟩ := exec_spec c s
  exact ⟨_, hm, exec_frame hm⟩

/-- Settles O39: fresh labels are numbered by position, FILL is a LOAD of one value repeated, and an
address below 0x10000 is not wrapped. -/
theorem pseudoStatementsExpand : Obligations.PseudoStatementsExpand := by
  refine ⟨fun _ _ => rfl, fun _ _ => rfl,
    ⟨.fresh, fun _ _ => Label.fresh.inj, fun _ _ => Label.noConfusion, fun _ => ⟨⟨_, rfl⟩, ⟨_, rfl⟩⟩⟩,
    fun _ => rfl, fun k X i count v => ⟨?_, fun j hj => ?_⟩,
    fun k X i vs => ⟨length_loadStmts X i vs, fun j v => getElem?_loadStmts X i⟩, fun src => ?_,
    fun i hi => ?_, fun i hi => ?_, fun i hi => ?_, fun i hi => ?_, fun i hi => ?_,
    fun X i => target_bufAddr⟩
  · simp [expandStmt, length_loadStmts]
  · have hv : (List.replicate count v)[j]? = some v := by simp [hj]
    exact getElem?_loadStmts X i hv
  · simpa only [expandScript, Nat.zero_add] using expandFrom_eq_flatten 0 src
  all_goals
    refine (bufAddr_toNat ?_).trans ?_ <;> simp only [Config.bufBase] <;> omega

/-- Settles O56: a dutiful write meets no busy buffer and no busy CMD, a dutiful read changes nothing. -/
theorem dutifulHostIsNeverTooEarly : Obligations.DutifulHostIsNeverTooEarly := by
  intro s t st ht hst hd hstep he
  rw [step_host ht] at hstep
  rcases hostTurn_cases hstep with ⟨a, v, hst', rfl⟩ | ⟨a, x, hst', rfl⟩ | ⟨k, rfl⟩
  · obtain rfl : st = .write a v := Option.some.inj (hst.symm.trans hst')
    exact memWrite_dutiful_errCode (s := dropTurn s) hd he
  · obtain rfl : st = .read a x := Option.some.inj (hst.symm.trans hst')
    have hread : (memRead a (dropTurn s)).2 = dropTurn s := memRead_dutiful (x := x) hd
    show (memRead a (dropTurn s)).2.errCode = s.errCode
    rw [hread, dropTurn_errCode]
  · rfl

/-- Settles O6: the registers by the port's map, STATUS by its flags. -/
theorem registerAccesses : Obligations.RegisterAccesses := by
  refine ⟨fun s => ⟨rfl, congrArg (·, s) (readStatus_eq_ofNat s), rfl, rfl⟩,
    fun v s => ⟨memWrite_cmd v s, (memWrite_status v s).trans (writeStatus_eq v s), rfl, rfl⟩,
    rfl, rfl, rfl, rfl⟩

/-- Settles O7: such an address reaches nothing. -/
theorem reservedAddressesAreInert : Obligations.ReservedAddressesAreInert := by
  intro a v s ha
  have ht := target_of_reserved ha
  exact ⟨memRead_reserved ht, memWrite_reserved ht v⟩

/-- Settles O9: every address below 0xC000 reaches a buffer byte, and busy refuses it. -/
theorem busyBufferAccessIsRefused : Obligations.BusyBufferAccessIsRefused := by
  intro a v s hb ha
  obtain ⟨X, i, ht⟩ := target_of_lt ha
  exact ⟨memRead_buffer_busy ht hb, memWrite_buffer_busy ht hb v⟩

end Sys2Proof.Machine
end

section
/-! Shared laws for the statements about encodings: which bytes are commands, and the pixels a frame and a
raster hold after each stage. -/

namespace Sys2Proof.Machine

/-! ### Command bytes -/

theorem decode_eq_ok_iff {v : Byte} {c : Instr} : decode v = .ok c ↔ v = encode c := by
  refine ⟨fun h => (encode_of_decode h).symm, ?_⟩
  rintro rfl
  exact decode_encode c

theorem fieldZ_encode (c : Instr) : fieldZ (encode c) = 0#5 := by cases c <;> rfl

/-- A value of OP selects a command or is unassigned (R120, R124). -/
theorem opOf_or_unassigned (op : BitVec 3) :
    (∃ c, op = opOf c) ∨ op = 0#3 ∨ op = 6#3 ∨ op = 7#3 := by
  have hop : ∀ o : BitVec 3, o ∈ [Instr.runA, .runB, .runC, .runD, .runAll].map opOf ∨
      o = 0#3 ∨ o = 6#3 ∨ o = 7#3 := by decide
  refine (hop op).imp_left fun h => ?_
  obtain ⟨c, -, hc⟩ := List.mem_map.mp h
  exact ⟨c, hc.symm⟩

/-- The values of R124 that are no command. -/
def illegalByte (v : Byte) : Prop := v = 0x00#8 ∨ v = 0x06#8 ∨ v = 0x07#8 ∨ fieldZ v ≠ 0#5

theorem not_illegalByte_encode (c : Instr) : ¬ illegalByte (encode c) := by
  rintro (h | h | h | h)
  case inr.inr.inr => exact h (fieldZ_encode c)
  all_goals revert h; cases c <;> decide

theorem encode_or_illegalByte (v : Byte) : (∃ c, v = encode c) ∨ illegalByte v := by
  by_cases hz : fieldZ v = 0#5
  · have hv : v = 0#5 ++ fieldOp v := by rw [← hz, fieldZ_append_fieldOp]
    rcases opOf_or_unassigned (fieldOp v) with ⟨c, h⟩ | h | h | h <;> rw [h] at hv
    · exact .inl ⟨c, hv⟩
    · exact .inr (.inl hv)
    · exact .inr (.inr (.inl hv))
    · exact .inr (.inr (.inr (.inl hv)))
  · exact .inr (.inr (.inr (.inr hz)))

theorem decode_of_illegalByte {v : Byte} (h : illegalByte v) : ∃ e, decode v = .error e := by
  cases hd : decode v with
  | error e => exact ⟨e, rfl⟩
  | ok c =>
    rw [decode_eq_ok_iff.mp hd] at h
    exact absurd h (not_illegalByte_encode c)

/-- A CMD write of no command while not busy is ILLEGAL_CMD (R150, R283). -/
theorem present_refuses {v : Byte} {e : DecodeError} {s : State} (hb : s.busy = false)
    (hd : decode v = .error e) : present v s = raiseError .illegalCmd s := by
  simp [present, presentIdle, hb, hd]

/-! ### Written destinations -/

theorem written_of_cellsFill {s : State} {X : Buf} {f : Nat → Byte}
    (h : s.mem.cells X = cellsFill (Config.bufLen X) f) : s.written X = true := by
  have hfill : (s.fillBuf X f).written X = s.written X := by
    simp [State.written, h]
  rw [← hfill]
  exact written_fillBuf s X f

/-! ### Frames and rasters at n = 16 -/

/-- A tile stands at its column in its row of 256 bytes, across the halves (R110, R111). -/
theorem tileBase_eq (x y : Nat) : tileBase x y = 256 * (y / 8) + 16 * (x / 8) := by
  have e : tileBase x y = y / 128 * 4096 + 16 * (y % 128 / 8 * 16 + x / 8) := rfl
  omega

theorem rasterPixel2_eq (src : Nat → Byte) (x y : Nat) :
    rasterPixel2 src x y = (src (32 * y + x / 4)).extractLsb' (6 - 2 * (x % 4)) 2 := rfl

theorem rasterNibble4_eq (src : Nat → Byte) (x y : Nat) :
    rasterNibble4 src x y = (src (64 * y + x / 2)).extractLsb' (if x % 2 = 0 then 4 else 0) 4 := rfl

/-- Two frames hold the same pixel where the bytes of both layers agree. -/
theorem pix_congr {f g : Nat → Byte} {x y y' : Nat}
    (h : ∀ layer < 2, f (tileBase x y + 8 * layer + y % 8) = g (tileBase x y' + 8 * layer + y' % 8)) :
    pix f x y = pix g x y' := by
  have h0 := h 0 (by omega)
  have h1 := h 1 (by omega)
  simp only [Nat.mul_zero, Nat.add_zero, Nat.mul_one] at h0 h1
  rw [pix, pix, h0, h1]

/-! ### Stage A -/

/-- Stage A takes each byte of tile row `y div 8` from the mirrored row (R175). -/
theorem indexA_tile {x y layer : Nat} (hx : x < 128) (hy : y < 256) (hl : layer < 2) :
    indexA (tileBase x y + 8 * layer + y % 8) =
      tileBase x (255 - y) + 8 * layer + (255 - y) % 8 := by
  rw [indexA_eq, tileBase_eq, tileBase_eq]; omega

theorem tileBase_lt {x y layer : Nat} (hx : x < 128) (hy : y < 256) (hl : layer < 2) :
    tileBase x y + 8 * layer + y % 8 < 8192 := by
  rw [tileBase_eq]; omega

theorem pix_execRunA {s t : State} (h : exec .runA s = .next t) {x y : Nat} (hx : x < 128)
    (hy : y < 256) : pix (t.byte .ba) x y = pix (s.byte .inp) x (255 - y) :=
  pix_congr fun layer hl => by
    rw [byte_execRunA h (tileBase_lt hx hy hl), indexA_tile hx hy hl]

/-! ### Stages B and C -/

/-- The merged word that covers pixel (x, y) of the raster: its half and source offset (R215, R216). -/
theorem halfOfDest_pixel {x y : Nat} (hx : x < 128) :
    halfOfDest (32 * y + x / 4) = y / 128 := by
  rw [halfOfDest_eq]; omega

theorem offsetOfDest_pixel {x y : Nat} (hx : x < 128) :
    offsetOfDest (32 * y + x / 4) = 8 * (16 * (y % 128 / 8) + x / 8) + y % 8 := by
  rw [offsetOfDest_eq]; omega

/-- Stage B's source in the coordinates half, run, position and byte (R192). -/
theorem indexB_coords (h : Nat) {u p r : Nat} (hu : u < 2) (hp : p < 256) (hr : r < 8) :
    indexB (h * 4096 + 2048 * u + (8 * p + r)) = 4096 * h + 8 * (2 * p + u) + r := by
  have h1 : (h * 4096 + 2048 * u + (8 * p + r)) / 4096 = h := by omega
  have h2 : (h * 4096 + 2048 * u + (8 * p + r)) % 2048 / 8 = p := by omega
  have h3 : (h * 4096 + 2048 * u + (8 * p + r)) % 4096 / 2048 = u := by omega
  have h4 : (h * 4096 + 2048 * u + (8 * p + r)) % 8 = r := by omega
  rw [indexB_eq, h1, h2, h3, h4]; omega

/-- Stage B takes run `layer` of a half from that layer of the half's tiles (R193). -/
theorem indexB_tile {x y layer : Nat} (hx : x < 128) (hl : layer < 2) :
    indexB (y / 128 * 4096 + 2048 * layer + (8 * (16 * (y % 128 / 8) + x / 8) + y % 8)) =
      tileBase x y + 8 * layer + y % 8 := by
  rw [indexB_coords _ hl (by omega) (by omega), tileBase_eq]; omega

/-- The word of pixel (x, y) merges the two layers' bytes of its tile. -/
theorem mergedWord_execRunB {s u : State} (h : exec .runB s = .next u) {x y : Nat} (hx : x < 128)
    (hy : y < 256) :
    mergedWord (u.byte .bb) (y / 128) (8 * (16 * (y % 128 / 8) + x / 8) + y % 8) =
      mergeBits (s.byte .ba (tileBase x y + y % 8)) (s.byte .ba (tileBase x y + 8 + y % 8)) := by
  have h0 := indexB_tile (y := y) (layer := 0) hx (by omega)
  have h1 := indexB_tile (y := y) (layer := 1) hx (by omega)
  simp only [Nat.mul_zero, Nat.add_zero, Nat.mul_one] at h0 h1
  rw [mergedWord_eq, byte_execRunB h (by omega), byte_execRunB h (by omega), h0, h1]

/-- The two bits of lane `i` of a merged word, layer 1 above layer 0 (R210). -/
theorem extractLsb'_mergeBits (a b : Byte) {i : Nat} (hi : i < 8) :
    (mergeBits a b).extractLsb' (2 * i) 2 = b.extractLsb' i 1 ++ a.extractLsb' i 1 := by
  obtain ⟨ha, hb⟩ := getLsbD_mergeBits a b hi
  apply BitVec.eq_of_getLsbD_eq
  intro j hj
  rw [BitVec.getLsbD_append]
  interval_cases j <;> simp [ha, hb]

theorem extractLsb'_of_extractLsb' {w q n p k : Nat} (v : BitVec w) (h : p + k ≤ n) :
    (v.extractLsb' q n).extractLsb' p k = v.extractLsb' (q + p) k := by
  apply BitVec.eq_of_getLsbD_eq
  intro j hj
  have hjn : p + j < n := by omega
  simp [hj, hjn, Nat.add_assoc]

/-- A pixel of the byte that holds it is the pixel's lane of the word (R113, R213). -/
theorem extractLsb'_wordByte (m : MergeWord) (x : Nat) :
    (if x / 4 % 2 = 0 then mergeHigh m else mergeLow m).extractLsb' (6 - 2 * (x % 4)) 2 =
      m.extractLsb' (2 * (7 - x % 8)) 2 := by
  split
  · have e : 8 + (6 - 2 * (x % 4)) = 2 * (7 - x % 8) := by omega
    rw [mergeHigh, extractLsb'_of_extractLsb' m (by omega), e]
  · have e : 0 + (6 - 2 * (x % 4)) = 2 * (7 - x % 8) := by omega
    rw [mergeLow, extractLsb'_of_extractLsb' m (by omega), e]

theorem rasterPixel2_execRunB_execRunC {s u t : State} (hB : exec .runB s = .next u)
    (hC : exec .runC u = .next t) {x y : Nat} (hx : x < 128) (hy : y < 256) :
    rasterPixel2 (t.byte .bc) x y = pix (s.byte .ba) x y := by
  have hparity : (32 * y + x / 4) % 2 = x / 4 % 2 := by omega
  rw [rasterPixel2_eq, byte_execRunC hC (by omega), stageC, halfOfDest_pixel hx,
    offsetOfDest_pixel hx, mergedWord_execRunB hB hx hy, hparity, extractLsb'_wordByte,
    extractLsb'_mergeBits _ _ (by omega), pix, chunkBit, chunkBit]

/-! ### Stage D -/

/-- The nibbles of `expand` are the pixels of the byte, leftmost first (R240). -/
theorem expand_nibbles (v : Byte) :
    (expandHi v).extractLsb' 4 4 = (v.extractLsb' 6 2).zeroExtend 4 ∧
      (expandHi v).extractLsb' 0 4 = (v.extractLsb' 4 2).zeroExtend 4 ∧
      (expandLo v).extractLsb' 4 4 = (v.extractLsb' 2 2).zeroExtend 4 ∧
      (expandLo v).extractLsb' 0 4 = (v.extractLsb' 0 2).zeroExtend 4 := by
  refine ⟨?_, ?_, ?_, ?_⟩
  all_goals
    apply BitVec.eq_of_getLsbD_eq
    intro j hj
    interval_cases j <;> simp [expandHi, expandLo]

/-- Pixel `x mod 4` of a 2bpp byte as a nibble of its two expanded bytes (R240, R243). -/
theorem extractLsb'_expand (v : Byte) (x : Nat) :
    (if x / 2 % 2 = 0 then expandHi v else expandLo v).extractLsb' (if x % 2 = 0 then 4 else 0) 4 =
      (v.extractLsb' (6 - 2 * (x % 4)) 2).zeroExtend 4 := by
  obtain ⟨h0, h1, h2, h3⟩ := expand_nibbles v
  split <;> split
  · have e : 6 - 2 * (x % 4) = 6 := by omega
    rw [e, h0]
  · have e : 6 - 2 * (x % 4) = 2 := by omega
    rw [e, h2]
  · have e : 6 - 2 * (x % 4) = 4 := by omega
    rw [e, h1]
  · have e : 6 - 2 * (x % 4) = 0 := by omega
    rw [e, h3]

theorem rasterNibble4_execRunD {s t : State} (h : exec .runD s = .next t) {x y : Nat}
    (hx : x < 128) (hy : y < 256) :
    rasterNibble4 (t.byte .out) x y = (rasterPixel2 (s.byte .bc) x y).zeroExtend 4 := by
  have hparity : (64 * y + x / 2) % 2 = x / 2 % 2 := by omega
  have hbyte : (64 * y + x / 2) / 2 = 32 * y + x / 4 := by omega
  rw [rasterNibble4_eq, byte_execRunD h (by omega), stageD, hparity, hbyte, extractLsb'_expand,
    rasterPixel2_eq]

end Sys2Proof.Machine
end

section
/-! Shared laws for the statements about host scripts: each statement as a step, what a fault comes from,
the polling loop of R126, and the labels of an expansion. -/

namespace Sys2Proof.Machine

/-! ### A host statement as a step -/

section
variable {s : State} (ht : nextTurn s = .host)
include ht

theorem step_hostStmt {st : Stmt} (hst : s.script[s.hostPc]? = some st) :
    step s = hostStmt st (dropTurn s) := by
  simp only [step_host ht, hostTurn, dropTurn_script, dropTurn_hostPc, hst]

theorem step_hostStmt_read {a : Addr} {x : Temp}
    (hst : s.script[s.hostPc]? = some (.read a x)) :
    step s = .next (hostRead a x (dropTurn s)) := step_hostStmt ht hst

theorem step_hostStmt_label {l : Label} (hst : s.script[s.hostPc]? = some (.label l)) :
    step s = .next { dropTurn s with hostPc := s.hostPc + 1 } := step_hostStmt ht hst

end

theorem hostJumpIf_false {b : Bool} (l : Label) (s : State) (hb : b = false) :
    hostJumpIf b l s = .next { s with hostPc := s.hostPc + 1 } := by
  simp [hostJumpIf, hb, hostNext]

theorem hostJumpIf_true {b : Bool} {l : Label} {s : State} {k : Nat} (hb : b = true)
    (hl : labelAt l s.script = some k) : hostJumpIf b l s = .next { s with hostPc := k } := by
  simp [hostJumpIf, hb, hostJump, hl]

theorem memWrite_hostPc (a : Addr) (v : Byte) (s : State) : (memWrite a v s).hostPc = s.hostPc := by
  obtain ⟨-, h, -⟩ := memWrite_keeps a v s
  exact h

/-- The turn list is not part of what a read returns (R73, R74, R76, R78). -/
theorem memRead_dropTurn_value (a : Addr) (s : State) :
    (memRead a (dropTurn s)).1 = (memRead a s).1 := by
  cases ht : target a with
  | buffer X i =>
    cases hb : s.busy with
    | true => rw [memRead_buffer_busy ht hb, memRead_buffer_busy (s := dropTurn s) ht hb]
    | false =>
      rw [memRead_buffer_idle ht hb, memRead_buffer_idle (s := dropTurn s) ht hb]
      rfl
  | _ => simp only [memRead, ht, readStatus, readErrcode, dropTurn_busy, dropTurn_done, dropTurn_err,
      dropTurn_errCode]

/-- What a read statement leaves beside its temporary is what the transaction leaves (R125). -/
theorem hostRead_eq (a : Addr) (x : Temp) (s : State) :
    hostRead a x s =
      { (memRead a s).2 with temps := (hostRead a x s).temps, hostPc := s.hostPc + 1 } := by
  obtain ⟨-, hpc, -⟩ := memRead_keeps a s
  simp only [hostRead, hostNext, State.setTemp, hpc]

/-! ### Labels -/

theorem labelAt_cons (l : Label) (st : Stmt) (r : List Stmt) :
    labelAt l (st :: r) = if st = .label l then some 0 else (labelAt l r).map (· + 1) := rfl

theorem getElem?_labelAt {l : Label} {script : List Stmt} {k : Nat}
    (h : labelAt l script = some k) : script[k]? = some (.label l) := by
  induction script generalizing k with
  | nil => cases h
  | cons st r ih =>
    rw [labelAt_cons] at h
    split at h
    · next hst => cases h; exact congrArg some hst
    · obtain ⟨j, hj, rfl⟩ := Option.map_eq_some_iff.mp h
      exact ih hj

theorem mem_scriptLabels_iff {l : Label} {script : List Stmt} :
    l ∈ scriptLabels script ↔ .label l ∈ script := by
  induction script with
  | nil => simp [scriptLabels]
  | cons st r ih => cases st <;> simp [scriptLabels, ih]

theorem exists_labelAt {l : Label} {script : List Stmt} (h : .label l ∈ script) :
    ∃ k, labelAt l script = some k := by
  induction script with
  | nil => cases h
  | cons st r ih =>
    rw [labelAt_cons]
    by_cases hst : st = .label l
    · exact ⟨0, if_pos hst⟩
    · obtain ⟨k, hk⟩ := ih ((List.mem_cons.mp h).resolve_left (Ne.symm hst))
      exact ⟨k + 1, by rw [if_neg hst, hk, Option.map_some]⟩

/-! ### Faults -/

/-- A jump that stops the host is taken, to a label that is not there (log entry 9). -/
theorem hostJumpIf_fault {b : Bool} {l : Label} {s : State} {f : Fault}
    (h : hostJumpIf b l s = .fault f) :
    b = true ∧ f = .noSuchLabel l ∧ labelAt l s.script = none := by
  cases b with
  | false => cases h
  | true =>
    simp only [hostJumpIf, hostJump, if_true] at h
    cases hl : labelAt l s.script with
    | some k => rw [hl] at h; cases h
    | none => rw [hl] at h; cases h; exact ⟨rfl, rfl, rfl⟩

/-- Every statement but a jump answers a next state. -/
theorem hostStmt_fault {st : Stmt} {s : State} {f : Fault} (h : hostStmt st s = .fault f) :
    ∃ x mask l, f = .noSuchLabel l ∧ labelAt l s.script = none ∧
      ((st = .jz x mask l ∧ s.temp x &&& mask = 0#8) ∨
        (st = .jnz x mask l ∧ s.temp x &&& mask ≠ 0#8)) := by
  cases st with
  | jz x mask l =>
    obtain ⟨hb, hf, hl⟩ := hostJumpIf_fault h
    exact ⟨x, mask, l, hf, hl, .inl ⟨rfl, by simpa using hb⟩⟩
  | jnz x mask l =>
    obtain ⟨hb, hf, hl⟩ := hostJumpIf_fault h
    exact ⟨x, mask, l, hf, hl, .inr ⟨rfl, by simpa using hb⟩⟩
  | write _ _ | read _ _ | label _ | halt => cases h

/-- A fault is the host's: reset and the engine answer a next state (R155, R280, R320). -/
theorem step_fault {s : State} {f : Fault} (h : step s = .fault f) :
    nextTurn s = .host ∧ ∃ st, s.script[s.hostPc]? = some st ∧
      hostStmt st (dropTurn s) = .fault f := by
  cases ht : nextTurn s with
  | reset => rw [step_reset ht] at h; cases h
  | engine =>
    cases he : s.eng with
    | idle => rw [step_engine_idle ht he] at h; cases h
    | running c =>
      obtain ⟨m, hm, -⟩ := exec_spec c (dropTurn s)
      rw [step_engine ht he, hm] at h; cases h
  | host =>
    rw [step_host ht, hostTurn] at h
    cases hst : s.script[s.hostPc]? with
    | some st => exact ⟨rfl, st, rfl, by simpa [hst] using h⟩
    | none => simp [hst] at h

/-! ### The polling loop with nothing running -/

theorem run_succ {s t : State} (k : Nat) (h : step s = .next t) :
    Host.Core.run core (k + 1) s = Host.Core.run core k t := by
  have hs : core.step s = .next t := h
  simp only [Host.Core.run, hs]

/-- `script` holds a WAITDONE loop at `p` (R126). -/
structure WaitDoneLoop (script : List Stmt) (p : Nat) (x : Temp) (l : Label) : Prop where
  label : script[p]? = some (.label l)
  read : script[p + 1]? = some (.read 0xC001#16 x)
  jump : script[p + 2]? = some (.jz x 0x02#8 l)
  place : labelAt l script = some p

/-- The host is inside the loop with ENG = Idle and DONE = 0: at the jump, the value it read shows
DONE = 0. -/
structure PollsInVain (script : List Stmt) (p : Nat) (x : Temp) (s : State) : Prop where
  script_eq : s.script = script
  idle : s.eng = .idle
  done : s.done = false
  inside : s.hostPc = p ∨ s.hostPc = p + 1 ∨ (s.hostPc = p + 2 ∧ s.temp x &&& 0x02#8 = 0#8)

theorem PollsInVain.hostPc_mem {script : List Stmt} {p : Nat} {x : Temp} {s : State}
    (h : PollsInVain script p x s) : p ≤ s.hostPc ∧ s.hostPc ≤ p + 2 := by
  rcases h.inside with h | h | ⟨h, -⟩ <;> omega

/-- Bit 1 of the STATUS byte is DONE (R36, R73). -/
theorem memRead_status_done {s : State} (h : s.done = false) :
    (memRead 0xC001#16 s).1 &&& 0x02#8 = 0#8 := by
  have hread : (memRead 0xC001#16 s).1 = readStatus s := rfl
  rw [hread, readStatus, h]
  cases s.err <;> cases s.busy <;> rfl

/-- The host's turn stays in the loop: label to read, read to jump, jump back to the label. -/
theorem step_host_pollsInVain {script : List Stmt} {p : Nat} {x : Temp} {l : Label} {s : State}
    (hloop : WaitDoneLoop script p x l) (h : PollsInVain script p x s) (ht : nextTurn s = .host) :
    ∃ t, step s = .next t ∧ PollsInVain script p x t := by
  obtain ⟨rfl, heng, hdone, hpc | hpc | ⟨hpc, htemp⟩⟩ := h
  · have hst : s.script[s.hostPc]? = some (.label l) := by rw [hpc]; exact hloop.label
    exact ⟨_, step_hostStmt_label ht hst, rfl, heng, hdone, .inr (.inl (by rw [hpc]))⟩
  · have hst : s.script[s.hostPc]? = some (.read 0xC001#16 x) := by rw [hpc]; exact hloop.read
    refine ⟨_, step_hostStmt_read ht hst, rfl, heng, hdone, .inr (.inr ⟨congrArg (· + 1) hpc, ?_⟩)⟩
    rw [hostRead_temp, if_pos rfl]
    exact memRead_status_done (s := dropTurn s) hdone
  · have hst : s.script[s.hostPc]? = some (.jz x 0x02#8 l) := by rw [hpc]; exact hloop.jump
    refine ⟨_, (step_hostStmt ht hst).trans (hostJumpIf_true ?_ hloop.place), rfl, heng, hdone,
      .inl rfl⟩
    exact beq_iff_eq.mpr htemp

/-- No turn leaves the loop: nothing runs, so the engine completes nothing, and reset keeps DONE = 0. -/
theorem step_pollsInVain {script : List Stmt} {p : Nat} {x : Temp} {l : Label} {s : State}
    (hloop : WaitDoneLoop script p x l) (h : PollsInVain script p x s) :
    ∃ t, step s = .next t ∧ PollsInVain script p x t := by
  cases ht : nextTurn s with
  | host => exact step_host_pollsInVain hloop h ht
  | engine =>
    obtain ⟨hscript, heng, hdone, hinside⟩ := h
    exact ⟨_, step_engine_idle ht heng, hscript, heng, hdone, hinside⟩
  | reset =>
    obtain ⟨hscript, heng, -, hinside⟩ := h
    refine ⟨_, step_reset ht, ?_⟩
    rw [resetBlock_idle (s := dropTurn s) heng]
    exact ⟨hscript, rfl, rfl, hinside⟩

theorem run_pollsInVain {script : List Stmt} {p : Nat} {x : Temp} {l : Label}
    (hloop : WaitDoneLoop script p x l) (k : Nat) {s : State} (h : PollsInVain script p x s) :
    ∃ t, Host.Core.run core k s = .next t ∧ PollsInVain script p x t := by
  induction k generalizing s with
  | zero => exact ⟨s, rfl, h⟩
  | succ k ih =>
    obtain ⟨u, hu, hpolls⟩ := step_pollsInVain hloop h
    obtain ⟨t, ht, hpollst⟩ := ih hpolls
    exact ⟨t, (run_succ k hu).trans ht, hpollst⟩

/-! ### Expansion -/

theorem plainStmts_cons (st : SrcStmt) (r : List SrcStmt) :
    plainStmts (st :: r) = plainStmts [st] ++ plainStmts r := by cases st <;> rfl

/-- One statement's expansion defines the writer's label, if it has one, or its own fresh label (R126). -/
theorem scriptLabels_expandStmt (k : Nat) (st : SrcStmt) :
    scriptLabels (expandStmt k st) = scriptLabels (plainStmts [st]) ∨
      (scriptLabels (expandStmt k st) = [.fresh k] ∧ plainStmts [st] = []) := by
  cases st with
  | waitDone | waitIdle => exact .inr ⟨rfl, rfl⟩
  | plain _ | cmd _ | clear => exact .inl rfl
  | fill X i _ _ | load X i _ => exact .inl (scriptLabels_loadStmts X i _)

theorem targetIn_loadStmts {X : Buf} {i : Nat} {vs : List Byte} {u : Stmt} (ls : List Label)
    (h : u ∈ loadStmts X i vs) : u.targetIn ls = true := by
  induction vs generalizing i with
  | nil => cases h
  | cons v vs ih =>
    rcases List.mem_cons.mp h with rfl | h
    · rfl
    · exact ih h

/-- A jump in one statement's expansion is the writer's, or to the expansion's own label (R126). -/
theorem targetIn_expandStmt {k : Nat} {st : SrcStmt} {u : Stmt} (h : u ∈ expandStmt k st) :
    u ∈ plainStmts [st] ∨ u.targetIn (scriptLabels (expandStmt k st)) = true := by
  cases st with
  | plain _ => exact .inl h
  | fill _ _ _ _ | load _ _ _ => exact .inr (targetIn_loadStmts _ h)
  | cmd _ | waitDone | waitIdle | clear =>
    refine .inr ?_
    revert u
    simp [expandStmt, Stmt.targetIn, scriptLabels]

theorem scriptLabels_expandFrom_cons (k : Nat) (st : SrcStmt) (r : List SrcStmt) :
    scriptLabels (expandFrom k (st :: r)) =
      scriptLabels (expandStmt k st) ++ scriptLabels (expandFrom (k + 1) r) :=
  scriptLabels_append _ _

theorem scriptLabels_plainStmts_cons (st : SrcStmt) (r : List SrcStmt) :
    scriptLabels (plainStmts (st :: r)) =
      scriptLabels (plainStmts [st]) ++ scriptLabels (plainStmts r) := by
  rw [plainStmts_cons, scriptLabels_append]

/-- Expansion keeps the writer's labels. -/
theorem mem_scriptLabels_expandFrom {src : List SrcStmt} (k : Nat) {l : Label}
    (h : l ∈ scriptLabels (plainStmts src)) : l ∈ scriptLabels (expandFrom k src) := by
  induction src generalizing k with
  | nil => cases h
  | cons st r ih =>
    rw [scriptLabels_plainStmts_cons, List.mem_append] at h
    rw [scriptLabels_expandFrom_cons, List.mem_append]
    refine h.imp (fun h => ?_) (ih (k + 1))
    rcases scriptLabels_expandStmt k st with e | ⟨-, e⟩
    · rwa [e]
    · rw [e] at h; cases h

/-- A label of an expansion is the writer's, or fresh with a position of the source (R126). -/
theorem scriptLabels_expandFrom_cases {src : List SrcStmt} {k : Nat} {l : Label}
    (h : l ∈ scriptLabels (expandFrom k src)) :
    l ∈ scriptLabels (plainStmts src) ∨ ∃ j, k ≤ j ∧ l = .fresh j := by
  induction src generalizing k with
  | nil => cases h
  | cons st r ih =>
    rw [scriptLabels_expandFrom_cons, List.mem_append] at h
    rw [scriptLabels_plainStmts_cons, List.mem_append]
    rcases h with h | h
    · rcases scriptLabels_expandStmt k st with e | ⟨e, -⟩ <;> rw [e] at h
      · exact .inl (.inl h)
      · exact .inr ⟨k, le_rfl, List.mem_singleton.mp h⟩
    · rcases ih h with h | ⟨j, hj, rfl⟩
      · exact .inl (.inr h)
      · exact .inr ⟨j, by omega, rfl⟩

/-- No fresh label is the writer's (R126). -/
theorem fresh_notMem_plainStmts {src : List SrcStmt} (hwf : src.all SrcStmt.wellFormed = true)
    (k : Nat) : .fresh k ∉ scriptLabels (plainStmts src) := by
  induction src with
  | nil => simp [plainStmts, scriptLabels]
  | cons st r ih =>
    rw [List.all_cons, Bool.and_eq_true] at hwf
    obtain ⟨hst, hr⟩ := hwf
    rw [scriptLabels_plainStmts_cons, List.mem_append, not_or]
    refine ⟨fun h => ?_, ih hr⟩
    cases st with
    | plain u =>
      obtain rfl : .label (.fresh k) = u := by simpa [plainStmts] using mem_scriptLabels_iff.mp h
      cases hst
    | cmd _ | waitDone | waitIdle | clear | fill _ _ _ _ | load _ _ _ => cases h

/-- The labels of an expansion are distinct when the writer's are (R126). -/
theorem nodup_scriptLabels_expandFrom {src : List SrcStmt} (k : Nat)
    (hwf : src.all SrcStmt.wellFormed = true) (hnd : (scriptLabels (plainStmts src)).Nodup) :
    (scriptLabels (expandFrom k src)).Nodup := by
  induction src generalizing k with
  | nil => exact List.nodup_nil
  | cons st r ih =>
    have hfresh := fresh_notMem_plainStmts hwf
    rw [List.all_cons, Bool.and_eq_true] at hwf
    rw [scriptLabels_plainStmts_cons] at hnd hfresh
    obtain ⟨-, hwfr⟩ := hwf
    obtain ⟨hst, hr, hdisj⟩ := List.nodup_append'.mp hnd
    have htail := ih (k + 1) hwfr hr
    rw [scriptLabels_expandFrom_cons]
    rcases scriptLabels_expandStmt k st with e | ⟨e, -⟩ <;> rw [e]
    · refine List.nodup_append'.mpr ⟨hst, htail, fun l hl hl' => ?_⟩
      rcases scriptLabels_expandFrom_cases hl' with hl' | ⟨j, -, rfl⟩
      · exact hdisj hl hl'
      · exact hfresh j (List.mem_append_left _ hl)
    · refine List.nodup_cons.mpr ⟨fun hk => ?_, htail⟩
      rcases scriptLabels_expandFrom_cases hk with hk | ⟨j, hj, e'⟩
      · exact hfresh k (List.mem_append_right _ hk)
      · cases e'; omega

/-- A jump in an expansion is the writer's, or to a label of the expansion (R126). -/
theorem targetIn_expandFrom {src : List SrcStmt} {k : Nat} {u : Stmt}
    (h : u ∈ expandFrom k src) :
    u ∈ plainStmts src ∨ u.targetIn (scriptLabels (expandFrom k src)) = true := by
  induction src generalizing k with
  | nil => cases h
  | cons st r ih =>
    rw [scriptLabels_expandFrom_cons, plainStmts_cons, List.mem_append]
    rcases List.mem_append.mp h with h | h
    · exact (targetIn_expandStmt h).imp .inl
        (targetIn_mono fun _ => List.mem_append_left _)
    · exact (ih h).imp .inr (targetIn_mono fun _ => List.mem_append_right _)

end Sys2Proof.Machine
end

section
/-! The encoding family's statements: the command bytes, the pictures the stages leave, and the host's
scripts. -/

namespace Sys2Proof.Machine

/-- Settles O2: an illegal value is no command's code, and a CMD write tests BUSY first. -/
theorem everyOtherByteIsIllegal : Obligations.EveryOtherByteIsIllegal := by
  refine ⟨fun v hv => ?_, fun v s hb => present_busy hb v, encode_or_illegalByte⟩
  obtain ⟨e, he⟩ := decode_of_illegalByte hv
  exact ⟨⟨e, he⟩, fun s hb => present_refuses hb he⟩

/-- Settles O15: executing a command fills each of its destinations. -/
theorem everyDestinationByteIsWritten : Obligations.EveryDestinationByteIsWritten := by
  intro c s t h X hX
  obtain ⟨m, hm, -, -, hfills⟩ := exec_spec c s
  obtain rfl : finish { s with mem := m } = t := by simpa [hm] using h
  obtain ⟨f, hf⟩ := hfills X hX
  exact written_of_cellsFill hf

/-- Settles O19: the mirrored tile row, with the rows inside a tile mirrored too. -/
theorem runATurnsTheImageUpsideDown : Obligations.RunATurnsTheImageUpsideDown :=
  fun _ _ h _ hx _ hy => pix_execRunA h hx hy

/-- Settles O25: the word that covers a raster pixel merges the two layers of the pixel's tile. -/
theorem runBAndRunCLayOutTheRaster : Obligations.RunBAndRunCLayOutTheRaster :=
  fun _ _ _ hB hC _ hx _ hy => rasterPixel2_execRunB_execRunC hB hC hx hy

/-- Settles O28: the nibbles of `expand` are the pixels of its byte. -/
theorem runDKeepsTheRaster : Obligations.RunDKeepsTheRaster :=
  fun _ _ h _ hx _ hy => rasterNibble4_execRunD h hx hy

/-- Settles O30: stage D keeps the raster B and C lay out, of the image A turned upside down. -/
theorem pipelineClosedForm : Obligations.PipelineClosedForm := by
  intro s
  obtain ⟨a, ha⟩ : ∃ a, exec .runA s = .next a := ⟨_, rfl⟩
  obtain ⟨b, hb⟩ : ∃ b, exec .runB a = .next b := ⟨_, rfl⟩
  obtain ⟨c, hc⟩ : ∃ c, exec .runC b = .next c := ⟨_, rfl⟩
  obtain ⟨d, hd⟩ : ∃ d, exec .runD c = .next d := ⟨_, rfl⟩
  obtain ⟨t, ht⟩ : ∃ t, exec .runAll s = .next t := ⟨_, rfl⟩
  refine ⟨a, b, c, d, t, ha, hb, hc, hd, ht, fun x hx y hy => ?_⟩
  have hout : t.byte .out = d.byte .out := by
    cases ha; cases hb; cases hc; cases hd; cases ht
    exact funext (byte_writeAllStages s .out)
  have hpixel : rasterNibble4 (d.byte .out) x (255 - y) = (pix (s.byte .inp) x y).zeroExtend 4 := by
    rw [rasterNibble4_execRunD hd hx (by omega), rasterPixel2_execRunB_execRunC hb hc hx (by omega),
      pix_execRunA ha hx (by omega), Nat.sub_sub_self (by omega)]
  have hbase : 4096 * (y / 128) + 16 * (16 * (y % 128 / 8) + x / 8) = tileBase x y := by
    rw [tileBase_eq]; omega
  simp only [hbase, hout, and_self]
  exact hpixel

/-- Settles O37: the host's turn is its statement, each by what that statement does. -/
theorem hostStatementsAct : Obligations.HostStatementsAct := by
  intro s ht
  refine ⟨fun a v hst => ?_, fun a x hst => ⟨_, step_hostStmt_read ht hst, ?_, fun y hy => ?_, ?_⟩,
    fun l => step_hostStmt_label ht, fun x mask l k hst => ⟨fun hz hl => ?_, fun hz => ?_⟩,
    fun x mask l k hst => ⟨fun hz hl => ?_, fun hz => ?_⟩, step_hostStmt ht⟩
  · rw [step_hostWrite ht hst, hostWrite, hostNext, memWrite_hostPc, dropTurn_hostPc]
  · rw [hostRead_temp, if_pos rfl, memRead_dropTurn_value]
  · rw [hostRead_temp, if_neg (Ne.symm hy)]
    rfl
  · exact hostRead_eq a x (dropTurn s)
  · exact (step_hostStmt ht hst).trans (hostJumpIf_true (beq_iff_eq.mpr hz) hl)
  · exact (step_hostStmt ht hst).trans (hostJumpIf_false l _ (beq_eq_false_iff_ne.mpr hz))
  · exact (step_hostStmt ht hst).trans (hostJumpIf_true (bne_iff_ne.mpr hz) hl)
  · exact (step_hostStmt ht hst).trans (hostJumpIf_false l _ (bne_eq_false_iff_eq.mpr hz))

/-- Settles O38: by induction on the script, for both directions. -/
theorem labelsNameTheirPlace : Obligations.LabelsNameTheirPlace :=
  ⟨fun _ _ _ => getElem?_labelAt, fun _ _ h => exists_labelAt (mem_scriptLabels_iff.mp h)⟩

/-- Settles O40: distinctness because a fresh label carries its source position, targets because
expansion keeps the writer's labels. -/
theorem expandedScriptsAreWellFormed : Obligations.ExpandedScriptsAreWellFormed := by
  intro src h
  simp only [srcWellFormed, scriptWellFormed, Bool.and_eq_true, labelsDistinct_iff] at h ⊢
  obtain ⟨hwf, hnd, htargets⟩ := h
  refine ⟨nodup_scriptLabels_expandFrom 0 hwf hnd, List.all_eq_true.mpr fun u hu => ?_⟩
  rcases targetIn_expandFrom hu with hplain | htarget
  · exact targetIn_mono (fun _ => mem_scriptLabels_expandFrom 0)
      (List.all_eq_true.mp htargets u hplain)
  · exact htarget

/-- Settles O42: being in the loop with nothing running and DONE = 0 is kept by every step. -/
theorem waitDoneWithoutACommandNeverEnds : Obligations.WaitDoneWithoutACommandNeverEnds := by
  intro s p x l heng hdone hpc hlabel hread hjump hplace k
  obtain ⟨t, ht, hpolls⟩ := run_pollsInVain ⟨hlabel, hread, hjump, hplace⟩ k
    (s := s) ⟨rfl, heng, hdone, .inl hpc⟩
  exact ⟨t, ht, hpolls.hostPc_mem⟩

/-- Settles O44: a fault comes from the host's statement, and only a jump answers one. -/
theorem onlyAMissingLabelFaults : Obligations.OnlyAMissingLabelFaults := by
  intro s f h
  obtain ⟨ht, st, hst, hfault⟩ := step_fault h
  obtain ⟨x, mask, l, hf, hl, hjump⟩ := hostStmt_fault hfault
  refine ⟨ht, x, mask, l, hf, hl, ?_⟩
  rw [hst]
  exact hjump.imp (fun ⟨e, hz⟩ => ⟨congrArg some e, hz⟩) (fun ⟨e, hz⟩ => ⟨congrArg some e, hz⟩)

/-- Settles O1: each code is its command's encoding, and decoding is its inverse. -/
theorem commandCodesDecode : Obligations.CommandCodesDecode :=
  ⟨fun _ => decode_eq_ok_iff, fun _ => decode_eq_ok_iff, fun _ => decode_eq_ok_iff,
    fun _ => decode_eq_ok_iff, fun _ => decode_eq_ok_iff, fun c => ⟨fieldZ_encode c, decode_encode c⟩⟩

/-- Settles O3: the decoder takes one byte, and it is its command's code. -/
theorem encodedCommandIsReadBack : Obligations.EncodedCommandIsReadBack := by
  refine ⟨fun c rest => by simp [decodeBytes], fun v rest c rest' h => ?_⟩
  simp only [decodeBytes] at h
  cases hd : decode v with
  | ok c' =>
    rw [hd] at h; cases h
    exact ⟨encode_of_decode hd, rfl⟩
  | error e => rw [hd] at h; cases h

end Sys2Proof.Machine
end

section
/-! Shared laws for the statements about the command unit: which bytes it accepts, what a command's writes
depend on, and a running command under the host's turns. -/

namespace Sys2Proof.Machine

/-! ### Legal bytes -/

theorem exists_encode_iff (v : Byte) :
    (∃ c, v = encode c) ↔ v ∈ [0x01#8, 0x02#8, 0x03#8, 0x04#8, 0x05#8] := by
  have hcodes : [0x01#8, 0x02#8, 0x03#8, 0x04#8, 0x05#8] =
      [Instr.runA, .runB, .runC, .runD, .runAll].map encode := rfl
  have hall : ∀ c, c ∈ [Instr.runA, .runB, .runC, .runD, .runAll] := by intro c; cases c <;> decide
  rw [hcodes, List.mem_map]
  exact ⟨fun ⟨c, h⟩ => ⟨c, hall c, h.symm⟩, fun ⟨c, _, h⟩ => ⟨c, h.symm⟩⟩

/-- A byte decodes to a command exactly when it is one of the five codes (R120, R124). -/
theorem exists_decode_ok_iff (v : Byte) :
    (∃ c, decode v = .ok c) ↔ v ∈ [0x01#8, 0x02#8, 0x03#8, 0x04#8, 0x05#8] := by
  simp only [decode_eq_ok_iff, exists_encode_iff]

/-! ### A stage's bytes depend on its source buffer alone -/

section
variable {f g : Nat → Byte} (h : ∀ i < 8192, f i = g i)
include h

theorem stageA_congr {j : Nat} (hj : j < 8192) : stageA f j = stageA g j := h _ (indexA_lt hj)

theorem stageB_congr {j : Nat} (hj : j < 8192) : stageB f j = stageB g j := h _ (indexB_lt hj)

theorem stageC_congr {d : Nat} (hd : d < 8192) : stageC f d = stageC g d := by
  have hj := offsetOfDest_lt hd
  have hword : mergedWord f (halfOfDest d) (offsetOfDest d) =
      mergedWord g (halfOfDest d) (offsetOfDest d) := by
    rw [mergedWord_eq, mergedWord_eq, halfOfDest_eq, h _ (by omega), h _ (by omega)]
  simp only [stageC, hword]

theorem stageD_congr {k : Nat} (hk : k < 16384) : stageD f k = stageD g k := by
  rw [stageD, stageD, h (k / 2) (by omega)]

end

/-- Two states hold the same bytes in the buffers listed. -/
def AgreeOn (Xs : List Buf) (s s' : State) : Prop :=
  ∀ X ∈ Xs, ∀ i < Config.bufLen X, s.byte X i = s'.byte X i

section
variable {Xs : List Buf} {s s' : State} (h : AgreeOn Xs s s')
include h

/-- Filling a buffer alike adds it to those two states agree on. -/
theorem AgreeOn.fillBuf {Y : Buf} {f g : Nat → Byte} (hfg : ∀ i < Config.bufLen Y, f i = g i) :
    AgreeOn (Y :: Xs) (s.fillBuf Y f) (s'.fillBuf Y g) := by
  intro X hX i hi
  by_cases hXY : X = Y
  · subst hXY
    rw [byte_fillBuf_same s X f hi, byte_fillBuf_same s' X g hi, hfg i hi]
  · rw [byte_fillBuf_other s f hXY, byte_fillBuf_other s' g hXY,
      h X ((List.mem_cons.mp hX).resolve_left hXY) i hi]

theorem AgreeOn.writeStageA (hsrc : .inp ∈ Xs) :
    AgreeOn (.ba :: Xs) (writeStageA s) (writeStageA s') :=
  h.fillBuf fun _ => stageA_congr (h .inp hsrc)

theorem AgreeOn.writeStageB (hsrc : .ba ∈ Xs) :
    AgreeOn (.bb :: Xs) (writeStageB s) (writeStageB s') :=
  h.fillBuf fun _ => stageB_congr (h .ba hsrc)

theorem AgreeOn.writeStageC (hsrc : .bb ∈ Xs) :
    AgreeOn (.bc :: Xs) (writeStageC s) (writeStageC s') :=
  h.fillBuf fun _ => stageC_congr (h .bb hsrc)

theorem AgreeOn.writeStageD (hsrc : .bc ∈ Xs) :
    AgreeOn (.out :: Xs) (writeStageD s) (writeStageD s') :=
  h.fillBuf fun _ => stageD_congr (h .bc hsrc)

/-- The buffers each stage of RUN_ALL reads are IN or written alike before (R260, R263). -/
theorem AgreeOn.writeAllStages (hsrc : .inp ∈ Xs) :
    AgreeOn (.out :: .bc :: .bb :: .ba :: Xs) (writeAllStages s) (writeAllStages s') :=
  (((h.writeStageA hsrc).writeStageB (by simp)).writeStageC (by simp)).writeStageD (by simp)

theorem AgreeOn.mono {Ys : List Buf} (hsub : Ys ⊆ Xs) : AgreeOn Ys s s' :=
  fun X hX => h X (hsub hX)

end

/-- Agreement on a command's source becomes agreement on its destinations (R153, R263). -/
theorem AgreeOn.exec {c : Instr} {s s' t t' : State} (h : AgreeOn [sourceOf c] s s')
    (ht : exec c s = .next t) (ht' : exec c s' = .next t') : AgreeOn (destsOf c) t t' := by
  cases c <;> cases ht <;> cases ht'
  case runA => exact (h.writeStageA (by decide)).mono (by decide)
  case runB => exact (h.writeStageB (by decide)).mono (by decide)
  case runC => exact (h.writeStageC (by decide)).mono (by decide)
  case runD => exact (h.writeStageD (by decide)).mono (by decide)
  case runAll => exact (h.writeAllStages (by decide)).mono (by decide)

/-- The memory a command leaves depends on the memory it starts from alone. -/
theorem exec_mem_congr {c : Instr} {s s' t t' : State} (h : s.mem = s'.mem)
    (ht : exec c s = .next t) (ht' : exec c s' = .next t') : t.mem = t'.mem := by
  cases c <;> cases ht <;> cases ht'
  case runA => exact writeStageA_mem_congr h
  case runB => exact writeStageB_mem_congr h
  case runC => exact writeStageC_mem_congr h
  case runD => exact writeStageD_mem_congr h
  case runAll =>
    exact writeStageD_mem_congr
      (writeStageC_mem_congr (writeStageB_mem_congr (writeStageA_mem_congr h)))

/-! ### A well-formed script's turns -/

theorem exists_hostJumpIf_next {l : Label} {s : State} (hl : l ∈ scriptLabels s.script) (b : Bool) :
    ∃ t, hostJumpIf b l s = .next t := by
  cases b with
  | false => exact ⟨_, hostJumpIf_false l s rfl⟩
  | true =>
    obtain ⟨k, hk⟩ := exists_labelAt (mem_scriptLabels_iff.mp hl)
    exact ⟨_, hostJumpIf_true rfl hk⟩

theorem exists_hostStmt_next {st : Stmt} {s : State}
    (h : st.targetIn (scriptLabels s.script) = true) : ∃ t, hostStmt st s = .next t := by
  cases st with
  | jz x mask l | jnz x mask l => exact exists_hostJumpIf_next (List.contains_iff_mem.mp h) _
  | write _ _ | read _ _ | label _ | halt => exact ⟨_, rfl⟩

/-- The host of a well-formed script never stops the machine (R280). -/
theorem exists_hostTurn_next {s : State} (h : scriptWellFormed s.script = true) :
    ∃ t, hostTurn s = .next t := by
  obtain ⟨-, htargets⟩ := Bool.and_eq_true_iff.mp h
  rw [hostTurn]
  cases hst : s.script[s.hostPc]? with
  | none => exact ⟨s, rfl⟩
  | some st =>
    exact exists_hostStmt_next (List.all_eq_true.mp htargets st (List.mem_of_getElem? hst))

theorem hostTurn_keeps {s t : State} (h : hostTurn s = .next t) :
    t.script = s.script ∧ t.turns = s.turns := by
  rcases hostTurn_cases h with ⟨a, v, _, rfl⟩ | ⟨a, x, _, rfl⟩ | ⟨k, rfl⟩
  · obtain ⟨-, -, hscript, hturns, -⟩ := memWrite_keeps a v s
    exact ⟨hscript, hturns⟩
  · obtain ⟨-, -, hscript, hturns, -⟩ := memRead_keeps a s
    exact ⟨hscript, hturns⟩
  · exact ⟨rfl, rfl⟩

/-! ### A running command under the host's turns -/

/-- While busy the host's step leaves ENG and BUSY (R150, R152). -/
theorem step_host_control_of_busy {s t : State} (ht : nextTurn s = .host) (hb : s.busy = true)
    (h : step s = .next t) : t.eng = s.eng ∧ t.busy = true := by
  rcases step_control h with ⟨hturn⟩ | ⟨_, hturn⟩ | ⟨_, _, hidle⟩ | ⟨_, _, _, _, heng, hbusy⟩ |
    ⟨heng, hbusy⟩
  · rw [ht] at hturn; cases hturn
  · rw [ht] at hturn; cases hturn
  · rw [hb] at hidle; cases hidle
  · exact ⟨heng, hbusy.trans hb⟩
  · exact ⟨heng, hbusy.trans hb⟩

/-- `c` runs on the memory `m` beside a host with a well-formed script (R152). -/
structure Executing (c : Instr) (m : Memory) (s : State) : Prop where
  running : s.eng = .running c
  busy : s.busy = true
  mem_eq : s.mem = m
  wellFormed : scriptWellFormed s.script = true

/-- The host's turn uses itself up and leaves the command running on the same memory. -/
theorem step_host_executing {c : Instr} {m : Memory} {s : State} (h : Executing c m s)
    (ht : nextTurn s = .host) :
    ∃ t, step s = .next t ∧ Executing c m t ∧ t.turns = s.turns.tail := by
  obtain ⟨hrun, hbusy, hmem, hwf⟩ := h
  obtain ⟨t, hturn⟩ := exists_hostTurn_next (s := dropTurn s) hwf
  have hstep : step s = .next t := (step_host ht).trans hturn
  obtain ⟨heng, hb⟩ := step_host_control_of_busy ht hbusy hstep
  obtain ⟨hscript, hturns⟩ := hostTurn_keeps hturn
  have hm : t.mem = s.mem := hostTurn_mem_of_busy (s := dropTurn s) hbusy hturn
  exact ⟨t, hstep, ⟨heng.trans hrun, hb, hm.trans hmem, by rw [hscript]; exact hwf⟩, hturns⟩

/-- The engine's turn completes the command on the memory it was running on. -/
theorem run_one_executing {c : Instr} {m : Memory} {s : State} (h : Executing c m s)
    (ht : nextTurn s = .engine) :
    ∃ v t, Host.Core.run core 1 s = .next t ∧ v.mem = m ∧ exec c v = .next t := by
  obtain ⟨m', hexec, -⟩ := exec_spec c (dropTurn s)
  have hstep := (step_engine ht h.running).trans hexec
  exact ⟨dropTurn s, _, run_succ 0 hstep, h.mem_eq, hexec⟩

/-- Without a reset the engine's turn comes: it is listed, or it is the default once the list is used
up (R330, log entry 6). -/
theorem run_executing {c : Instr} {m : Memory} {s : State} (h : Executing c m s)
    (hreset : .reset ∉ s.turns) :
    ∃ k v t, k ≤ s.turns.length + 1 ∧ Host.Core.run core k s = .next t ∧ v.mem = m ∧
      exec c v = .next t := by
  induction hts : s.turns generalizing s with
  | nil =>
    have hturn : nextTurn s = .engine := by simp [nextTurn, hts, defaultTurn, h.running]
    obtain ⟨v, t, hcompletes⟩ := run_one_executing h hturn
    exact ⟨1, v, t, by simp, hcompletes⟩
  | cons turn ts ih =>
    have hturn : nextTurn s = turn := by simp [nextTurn, hts]
    rw [hts] at hreset
    cases turn with
    | reset => exact absurd List.mem_cons_self hreset
    | engine =>
      obtain ⟨v, t, hcompletes⟩ := run_one_executing h hturn
      exact ⟨1, v, t, by simp, hcompletes⟩
    | host =>
      obtain ⟨u, hstep, hu, huts⟩ := step_host_executing h hturn
      rw [hts, List.tail_cons] at huts
      have hreset' : .reset ∉ u.turns := huts ▸ fun hr => hreset (List.mem_cons_of_mem _ hr)
      obtain ⟨k, v, t, hk, hrun, hcompletes⟩ := ih hu hreset' huts
      exact ⟨k + 1, v, t, by simpa using hk, (run_succ k hstep).trans hrun, hcompletes⟩

end Sys2Proof.Machine
end

section
/-! The command unit family's statements: presentation, what a command's writes depend on, and that an
accepted command completes. -/

namespace Sys2Proof.Machine

/-- Settles O12: a CMD write is `present`, by BUSY and then by what the byte decodes to. -/
theorem presentingACommand : Obligations.PresentingACommand := by
  refine ⟨fun v s hb => present_busy hb v, fun v c s hb hd => present_accepts hb hd,
    fun v s hb hv => ?_, exists_decode_ok_iff⟩
  cases hd : decode v with
  | ok c => exact absurd ((exists_decode_ok_iff v).mp ⟨c, hd⟩) hv
  | error e => exact present_refuses hb hd

/-- Settles O16: agreement on the source goes through each stage to what it writes. -/
theorem destinationsDependOnTheSourceAlone : Obligations.DestinationsDependOnTheSourceAlone := by
  intro c s s' t t' hsrc ht ht'
  have hagree : AgreeOn [sourceOf c] s s' := fun X hX => by
    obtain rfl := List.mem_singleton.mp hX
    exact hsrc
  exact hagree.exec ht ht'

/-- Settles O55: host turns leave the command running on the memory it was accepted with, and the
engine's turn comes at the latest when the list is used up. -/
theorem acceptedCommandCompletes : Obligations.AcceptedCommandCompletes := by
  intro s c hrun hbusy hwf hreset
  obtain ⟨k, v, t, hk, ht, hmem, hcompletes⟩ := run_executing ⟨hrun, hbusy, rfl, hwf⟩ hreset
  obtain ⟨m, hexec, -⟩ := exec_spec c s
  obtain ⟨heng, hb, hd⟩ := exec_control hcompletes
  exact ⟨k, t, _, hk, ht, hexec, heng, hb, hd, byte_congr (exec_mem_congr hmem hcompletes hexec)⟩

end Sys2Proof.Machine
end

section
/-! The row reversal family: Stage A's index map at R172's loop indices, and the family's statements. -/

namespace Sys2Proof.Machine

/-- R172's pseudocode: byte `r` of group `g` in band `b` lands in band `31 - b`, in the same group, at
place `7 - r`. -/
theorem indexA_mirrored {b g r : Nat} (hb : b < 32) (hg : g < 32) (hr : r < 8) :
    indexA ((31 - b) * 256 + 8 * g + (7 - r)) = b * 256 + 8 * g + r := by
  rw [indexA_eq]; omega

/-- Settles O17: both forms are Stage A's index map, and the frame is that of every command. -/
theorem runAReversesRows : Obligations.RunAReversesRows := by
  refine ⟨rfl, fun s => ?_⟩
  obtain ⟨t, ht⟩ : ∃ t, exec .runA s = .next t := ⟨_, rfl⟩
  refine ⟨t, ht, fun b hb g hg r hr => ?_, fun j hj => ?_, exec_frame ht⟩
  · rw [byte_execRunA ht (by omega), indexA_mirrored hb hg hr]
  · rw [byte_execRunA ht hj, indexA_eq, Nat.mul_comm 8]

/-- Settles O18: Stage A's index map is its own inverse. -/
theorem runAIsAnInvolution : Obligations.RunAIsAnInvolution := by
  intro s t s' t' ht hcopy ht' j hj
  have hi : indexA j < 8192 := indexA_lt hj
  calc t'.byte .ba j = s'.byte .inp (indexA j) := byte_execRunA ht' hj
    _ = t.byte .ba (indexA j) := hcopy _ hi
    _ = s.byte .inp (indexA (indexA j)) := byte_execRunA ht hi
    _ = s.byte .inp j := by rw [indexA_indexA hj]

end Sys2Proof.Machine
end

section
/-! The tile reordering family: Stage B's index map at R192's loop indices and applied twice, and the
family's statements. -/

namespace Sys2Proof.Machine

/-- R192's pseudocode: byte `r` of group `k` in half `h` lands in run `k mod 2` of that half, at
position `k div 2`. -/
theorem indexB_interleaved (h : Nat) {k r : Nat} (hk : k < 512) (hr : r < 8) :
    indexB (h * 4096 + k % 2 * 2048 + k / 2 * 8 + r) = h * 4096 + 8 * k + r := by
  have hcoords : h * 4096 + k % 2 * 2048 + k / 2 * 8 + r =
      h * 4096 + 2048 * (k % 2) + (8 * (k / 2) + r) := by omega
  rw [hcoords, indexB_coords h (by omega) (by omega) hr]; omega

theorem byte_execRunB_interleaved {s t : State} (ht : exec .runB s = .next t) {h k r : Nat}
    (hh : h < 2) (hk : k < 512) (hr : r < 8) :
    t.byte .bb (h * 4096 + k % 2 * 2048 + k / 2 * 8 + r) = s.byte .ba (h * 4096 + 8 * k + r) := by
  rw [byte_execRunB ht (by omega), indexB_interleaved h hk hr]

/-- The reordering applied to its own output reads the first BA through the index map twice. -/
theorem byte_execRunB_twice {s t s' t' : State} (ht : exec .runB s = .next t)
    (hcopy : ∀ j < 8192, s'.byte .ba j = t.byte .bb j) (ht' : exec .runB s' = .next t')
    {j : Nat} (hj : j < 8192) : t'.byte .bb j = s.byte .ba (indexB (indexB j)) :=
  calc t'.byte .bb j = s'.byte .ba (indexB j) := byte_execRunB ht' hj
    _ = t.byte .bb (indexB j) := hcopy _ (indexB_lt hj)
    _ = s.byte .ba (indexB (indexB j)) := byte_execRunB ht (indexB_lt hj)

/-- The reset state with BA filled from `f`. -/
def baFilledWith (f : Nat → Byte) : State := State.reset.fillBuf .ba f

theorem byte_baFilledWith (f : Nat → Byte) {j : Nat} (hj : j < 8192) :
    (baFilledWith f).byte .ba j = f j := byte_fillBuf_same State.reset .ba f hj

/-- Settles O20: both forms are Stage B's index map, and the frame is that of every command. -/
theorem runBReordersTiles : Obligations.RunBReordersTiles := by
  refine ⟨rfl, fun s => ?_⟩
  obtain ⟨t, ht⟩ : ∃ t, exec .runB s = .next t := ⟨_, rfl⟩
  refine ⟨t, ht, fun h hh k hk r hr => byte_execRunB_interleaved ht hh hk hr, fun j hj => ?_,
    exec_frame ht⟩
  rw [byte_execRunB ht hj, indexB_eq]

/-- Settles O21: the inverse is R192's loop read backwards. For the last clause every byte of BA holds
its own index modulo 256; two applications fill index 8 from index 32. -/
theorem runBHasAnInverseAndIsNoInvolution : Obligations.RunBHasAnInverseAndIsNoInvolution := by
  refine ⟨fun s t ht h hh k hk r hr => (byte_execRunB_interleaved ht hh hk hr).symm,
    fun s t s' t' ht hcopy ht' => ⟨?_, ?_⟩, ?_⟩
  · exact byte_execRunB ht (j := 2048) (by omega)
  · exact byte_execRunB_twice ht hcopy ht' (j := 1024) (by omega)
  · obtain ⟨t, ht⟩ : ∃ t, exec .runB (baFilledWith (BitVec.ofNat 8)) = .next t := ⟨_, rfl⟩
    obtain ⟨t', ht'⟩ : ∃ t', exec .runB (baFilledWith (t.byte .bb)) = .next t' := ⟨_, rfl⟩
    have hcopy : ∀ j < 8192, (baFilledWith (t.byte .bb)).byte .ba j = t.byte .bb j :=
      fun _ hj => byte_baFilledWith _ hj
    have hmoved : t'.byte .bb 8 = (baFilledWith (BitVec.ofNat 8)).byte .ba 32 :=
      byte_execRunB_twice ht hcopy ht' (j := 8) (by omega)
    refine ⟨_, t, _, t', ht, hcopy, ht', ?_⟩
    rw [hmoved, byte_baFilledWith _ (by omega), byte_baFilledWith _ (by omega)]
    decide

end Sys2Proof.Machine
end

section
/-! The bitplane merge family: merge_bits is injective, RUN_C's bytes at R212's destinations, and each
destination byte belongs to one source pair. -/

namespace Sys2Proof.Machine

/-- Both bytes are read back from their lanes of the merged word (R211). -/
theorem mergeBits_injective {a b a' b' : Byte} (h : mergeBits a b = mergeBits a' b') :
    a = a' ∧ b = b' := by
  constructor
  · refine BitVec.eq_of_getLsbD_eq fun i hi => ?_
    rw [← (getLsbD_mergeBits a b hi).1, h, (getLsbD_mergeBits a' b' hi).1]
  · refine BitVec.eq_of_getLsbD_eq fun i hi => ?_
    rw [← (getLsbD_mergeBits a b hi).2, h, (getLsbD_mergeBits a' b' hi).2]

/-- R214's two writes: the high byte at the destination, the low byte after it. -/
theorem byte_execRunC_dest {s t : State} (ht : exec .runC s = .next t) {h j : Nat} (hh : h < 2)
    (hj : j < 2048) :
    t.byte .bc (dest h j) = mergeHigh (mergedWord (s.byte .bb) h j) ∧
      t.byte .bc (dest h j + 1) = mergeLow (mergedWord (s.byte .bb) h j) := by
  have hlt : dest h j + 1 < 8192 := dest_lt hh hj
  constructor
  · rw [byte_execRunC ht (by omega), stageC_dest _ h hj]
  · rw [byte_execRunC ht hlt, stageC_dest_succ _ h hj]

/-- A destination stays inside its half (R215). -/
theorem dest_mem_half (h : Nat) {j : Nat} (hj : j < 2048) :
    h * 4096 ≤ dest h j ∧ dest h j ≤ h * 4096 + 4094 := by
  rw [dest_eq]; omega

theorem halfOfDest_lt {d : Nat} (hd : d < 8192) : halfOfDest d < 2 := by
  rw [halfOfDest_eq]; omega

/-- A byte of the word stored for source offset `j` of half `h` determines `h` and `j` (R215). -/
theorem source_unique {d h j : Nat} (hj : j < 2048) (hd : d = dest h j ∨ d = dest h j + 1) :
    h = halfOfDest d ∧ j = offsetOfDest d := by
  obtain ⟨e, he, rfl⟩ : ∃ e < 2, d = dest h j + e := by
    obtain rfl | rfl := hd
    · exact ⟨0, by omega, (Nat.add_zero _).symm⟩
    · exact ⟨1, by omega, rfl⟩
  obtain ⟨hhalf, hoffset⟩ := source_of_dest h hj he
  exact ⟨hhalf.symm, hoffset.symm⟩

/-- Settles O22: the lanes of merge_bits, and both bytes read back from them. -/
theorem mergeBitsLanes : Obligations.MergeBitsLanes :=
  ⟨fun a b _ hi => getLsbD_mergeBits a b hi, fun _ _ _ _ h => mergeBits_injective h, by decide⟩

/-- Settles O23: R214's two writes at `dest`, and the frame is that of every command. -/
theorem runCMergesBitplanes : Obligations.RunCMergesBitplanes := by
  refine ⟨rfl, fun s => ?_⟩
  obtain ⟨t, ht⟩ : ∃ t, exec .runC s = .next t := ⟨_, rfl⟩
  refine ⟨t, ht, fun h hh j hj => ?_, exec_frame ht⟩
  rw [← mergedWord_eq (s.byte .bb), ← dest_eq]
  exact byte_execRunC_dest ht hh hj

/-- Settles O24: a byte's one source pair is the inverse of `dest` at it. -/
theorem stageCDestinationsCoverOnce : Obligations.StageCDestinationsCoverOnce := by
  refine ⟨fun h _ j hj => ⟨?_, dest_even h j, dest_mem_half h hj⟩, fun d hd =>
    ⟨halfOfDest d, offsetOfDest d, halfOfDest_lt hd, offsetOfDest_lt hd, ?_,
      fun h' _ j' hj' hcover => source_unique hj' hcover⟩⟩
  · rw [dest_eq]; omega
  · have hcover : d = dest (halfOfDest d) (offsetOfDest d) + d % 2 := dest_offsetOfDest hd
    omega

end Sys2Proof.Machine
end

section
/-! The depth decompression family: a byte of OUT as two zero-extended pixels, and the family's
statements. -/

namespace Sys2Proof.Machine

/-- The byte whose nibbles are two zero-extended 2-bit pixels, leftmost first (R114, R240). -/
def pixelPair (p q : BitVec 2) : Byte := 0#2 ++ p ++ 0#2 ++ q

theorem extractLsb'_pixelPair : ∀ p q : BitVec 2,
    (pixelPair p q).extractLsb' 4 2 = p ∧ (pixelPair p q).extractLsb' 0 2 = q := by decide

/-- The nibbles of a pixel pair are in range (R241). -/
theorem pixelPair_inRange : ∀ p q : BitVec 2,
    ((pixelPair p q).extractLsb' 4 4).toNat ≤ 3 ∧ ((pixelPair p q).extractLsb' 0 4).toNat ≤ 3 ∧
      pixelPair p q &&& 0xCC#8 = 0#8 := by decide

/-- A byte whose nibbles are zero-extended pixels is their pixel pair (R114). -/
theorem eq_pixelPair {v : Byte} {p q : BitVec 2} (hp : v.extractLsb' 4 4 = p.zeroExtend 4)
    (hq : v.extractLsb' 0 4 = q.zeroExtend 4) : v = pixelPair p q := by
  have happend : ∀ p q : BitVec 2, p.zeroExtend 4 ++ q.zeroExtend 4 = pixelPair p q := by decide
  have hnibbles : v.extractLsb' 4 4 ++ v.extractLsb' 0 4 = v.extractLsb' 0 8 :=
    BitVec.extractLsb'_append_extractLsb'_eq_extractLsb' rfl
  calc v = v.extractLsb' 0 8 := BitVec.extractLsb'_eq_self.symm
    _ = v.extractLsb' 4 4 ++ v.extractLsb' 0 4 := hnibbles.symm
    _ = pixelPair p q := by rw [hp, hq, happend]

theorem expandHi_eq_pixelPair (x : Byte) :
    expandHi x = pixelPair (x.extractLsb' 6 2) (x.extractLsb' 4 2) := by
  obtain ⟨hp, hq, -⟩ := expand_nibbles x
  exact eq_pixelPair hp hq

theorem expandLo_eq_pixelPair (x : Byte) :
    expandLo x = pixelPair (x.extractLsb' 2 2) (x.extractLsb' 0 2) := by
  obtain ⟨-, -, hp, hq⟩ := expand_nibbles x
  exact eq_pixelPair hp hq

/-- A byte is its four 2-bit pixels (R113). -/
theorem extractLsb'_pixels_append (x : Byte) :
    x.extractLsb' 6 2 ++ x.extractLsb' 4 2 ++ x.extractLsb' 2 2 ++ x.extractLsb' 0 2 = x := by
  have h64 : x.extractLsb' 6 2 ++ x.extractLsb' 4 2 = x.extractLsb' 4 4 :=
    BitVec.extractLsb'_append_extractLsb'_eq_extractLsb' rfl
  have h42 : x.extractLsb' 4 4 ++ x.extractLsb' 2 2 = x.extractLsb' 2 6 :=
    BitVec.extractLsb'_append_extractLsb'_eq_extractLsb' rfl
  have h20 : x.extractLsb' 2 6 ++ x.extractLsb' 0 2 = x.extractLsb' 0 8 :=
    BitVec.extractLsb'_append_extractLsb'_eq_extractLsb' rfl
  rw [h64, h42, h20]
  exact BitVec.extractLsb'_eq_self

theorem exists_stageD_eq_pixelPair (src : Nat → Byte) (k : Nat) :
    ∃ p q, stageD src k = pixelPair p q := by
  rw [stageD]
  split
  · exact ⟨_, _, expandHi_eq_pixelPair _⟩
  · exact ⟨_, _, expandLo_eq_pixelPair _⟩

/-- RUN_ALL's last stage reads the BC its third stage left (R260). -/
theorem byte_out_execRunAll {s t : State} (h : exec .runAll s = .next t) {k : Nat}
    (hk : k < 16384) :
    t.byte .out k = stageD ((writeStageC (writeStageB (writeStageA s))).byte .bc) k := by
  cases h
  exact byte_fillBuf_same _ .out _ hk

/-- Settles O27: Stage D at an even and at an odd index, and the frame is that of every command. -/
theorem runDExpandsPixels : Obligations.RunDExpandsPixels := by
  refine ⟨rfl, fun s => ?_⟩
  obtain ⟨t, ht⟩ : ∃ t, exec .runD s = .next t := ⟨_, rfl⟩
  refine ⟨t, ht, fun i hi => ⟨?_, ?_⟩, exec_frame ht⟩
  · rw [byte_execRunD ht (by omega), stageD_even, expandHi]
  · rw [byte_execRunD ht (by omega), stageD_odd, expandLo]

/-- Settles O31: either command leaves Stage D's bytes in OUT, and each of them is a pixel pair. -/
theorem outputPixelsAreInRange : Obligations.OutputPixelsAreInRange := by
  intro c s t hc h
  refine ⟨rfl, fun k hk => ?_⟩
  obtain ⟨src, hsrc⟩ : ∃ src, t.byte .out k = stageD src k := by
    obtain rfl | rfl := hc
    · exact ⟨_, byte_execRunD h hk⟩
    · exact ⟨_, byte_out_execRunAll h hk⟩
  obtain ⟨p, q, hpair⟩ := exists_stageD_eq_pixelPair src k
  rw [hsrc, hpair]
  exact pixelPair_inRange p q

/-- Settles O26: both bytes of `expand` are pixel pairs, and the four pixels make up the byte. -/
theorem expandLanes : Obligations.ExpandLanes := by
  intro x
  rw [expandHi_eq_pixelPair, expandLo_eq_pixelPair]
  obtain ⟨-, -, hhi⟩ := pixelPair_inRange (x.extractLsb' 6 2) (x.extractLsb' 4 2)
  obtain ⟨-, -, hlo⟩ := pixelPair_inRange (x.extractLsb' 2 2) (x.extractLsb' 0 2)
  refine ⟨rfl, rfl, hhi, hlo, ?_⟩
  simp only [extractLsb'_pixelPair]
  exact (extractLsb'_pixels_append x).symm

end Sys2Proof.Machine
end

section
/-! The RUN_ALL family: the pipeline as the four commands one after another, each stage injective on its
source frame, and the family's statements. -/

namespace Sys2Proof.Machine

/-! ### RUN_ALL's stages -/

/-- RUN_ALL leaves the bytes that the four commands one after another leave (R260). -/
theorem execRunAll_eq_four_commands {s t : State} (h : exec .runAll s = .next t) :
    ∃ a b c d, exec .runA s = .next a ∧ exec .runB a = .next b ∧ exec .runC b = .next c ∧
      exec .runD c = .next d ∧ ∀ X i, t.byte X i = d.byte X i := by
  cases h
  exact ⟨_, _, _, _, rfl, rfl, rfl, rfl, byte_writeAllStages s⟩

/-- `t` holds the pipeline's buffers for the IN of `s`, each the stage of the one before (R260). -/
structure PipelineBytes (s t : State) : Prop where
  ba : ∀ j < 8192, t.byte .ba j = stageA (s.byte .inp) j
  bb : ∀ j < 8192, t.byte .bb j = stageB (t.byte .ba) j
  bc : ∀ d < 8192, t.byte .bc d = stageC (t.byte .bb) d
  out : ∀ k < 16384, t.byte .out k = stageD (t.byte .bc) k

/-- No later stage writes over what an earlier one left. -/
theorem pipelineBytes_execRunAll {s t : State} (h : exec .runAll s = .next t) :
    PipelineBytes s t := by
  obtain ⟨a, b, c, d, ha, hb, hc, hd, hbytes⟩ := execRunAll_eq_four_commands h
  have hout : t.byte .out = d.byte .out := funext (hbytes .out)
  have hbc : t.byte .bc = c.byte .bc := funext fun i => by
    rw [hbytes, exec_byte_kept hd (by decide)]
  have hbb : t.byte .bb = b.byte .bb := funext fun i => by
    rw [hbytes, exec_byte_kept hd (by decide), exec_byte_kept hc (by decide)]
  have hba : t.byte .ba = a.byte .ba := funext fun i => by
    rw [hbytes, exec_byte_kept hd (by decide), exec_byte_kept hc (by decide),
      exec_byte_kept hb (by decide)]
  constructor
  · rw [hba]; exact fun _ => byte_execRunA ha
  · rw [hbb, hba]; exact fun _ => byte_execRunB hb
  · rw [hbc, hbb]; exact fun _ => byte_execRunC hc
  · rw [hout, hbc]; exact fun _ => byte_execRunD hd

/-! ### Each stage is injective on its source frame -/

/-- A word is its two stored bytes (R213). -/
theorem mergeHigh_append_mergeLow (m : MergeWord) : mergeHigh m ++ mergeLow m = m := by
  have happend : m.extractLsb' 8 8 ++ m.extractLsb' 0 8 = m.extractLsb' 0 16 :=
    BitVec.extractLsb'_append_extractLsb'_eq_extractLsb' rfl
  exact happend.trans BitVec.extractLsb'_eq_self

/-- `expand` loses nothing (R241). -/
theorem expand_injective {x y : Byte} (hhi : expandHi x = expandHi y)
    (hlo : expandLo x = expandLo y) : x = y := by
  obtain ⟨-, -, -, -, hx⟩ := expandLanes x
  obtain ⟨-, -, -, -, hy⟩ := expandLanes y
  rw [hx, hy, hhi, hlo]

section
variable {f g : Nat → Byte} {i : Nat} (hi : i < 8192)
include hi

/-- R173: Stage A is a permutation, its own inverse. -/
theorem stageA_injective (h : ∀ j < 8192, stageA f j = stageA g j) : f i = g i := by
  have hj := h (indexA i) (indexA_lt hi)
  rwa [stageA, stageA, indexA_indexA hi] at hj

/-- R194: R192's interleave gives the destination of each source index. -/
theorem exists_indexB_eq : ∃ j < 8192, indexB j = i := by
  refine ⟨i / 4096 * 4096 + i % 4096 / 8 % 2 * 2048 + i % 4096 / 8 / 2 * 8 + i % 8, by omega, ?_⟩
  rw [indexB_interleaved _ (by omega) (by omega)]; omega

/-- R194: Stage B is a permutation. -/
theorem stageB_injective (h : ∀ j < 8192, stageB f j = stageB g j) : f i = g i := by
  obtain ⟨j, hj, rfl⟩ := exists_indexB_eq hi
  exact h j hj

/-- R211, R215: every source pair's merged word is stored, and merge_bits is injective. -/
theorem stageC_injective (h : ∀ d < 8192, stageC f d = stageC g d) : f i = g i := by
  have hpair : ∀ b < 2, ∀ j < 2048,
      f (b * 4096 + j) = g (b * 4096 + j) ∧ f (b * 4096 + 2048 + j) = g (b * 4096 + 2048 + j) := by
    intro b hb j hj
    have hlt : dest b j + 1 < 8192 := dest_lt hb hj
    have hhigh := h (dest b j) (by omega)
    have hlow := h (dest b j + 1) hlt
    rw [stageC_dest f b hj, stageC_dest g b hj] at hhigh
    rw [stageC_dest_succ f b hj, stageC_dest_succ g b hj] at hlow
    have hword : mergedWord f b j = mergedWord g b j := by
      rw [← mergeHigh_append_mergeLow (mergedWord f b j), hhigh, hlow, mergeHigh_append_mergeLow]
    exact mergeBits_injective hword
  obtain ⟨hlayer0, hlayer1⟩ := hpair (i / 4096) (by omega) (i % 2048) (by omega)
  have hlayer : i = i / 4096 * 4096 + i % 2048 ∨ i = i / 4096 * 4096 + 2048 + i % 2048 := by omega
  obtain e | e := hlayer
  · rw [e]; exact hlayer0
  · rw [e]; exact hlayer1

/-- R241: Stage D stores both bytes of each expansion. -/
theorem stageD_injective (h : ∀ k < 16384, stageD f k = stageD g k) : f i = g i := by
  have hhi := h (2 * i) (by omega)
  have hlo := h (2 * i + 1) (by omega)
  rw [stageD_even, stageD_even] at hhi
  rw [stageD_odd, stageD_odd] at hlo
  exact expand_injective hhi hlo

end

/-! ### The statements -/

/-- Settles O29: the pipeline's buffers by each stage's index form, the frame of every command, and the
four commands' runs. -/
theorem runAllRunsTheFourStages : Obligations.RunAllRunsTheFourStages := by
  refine ⟨rfl, fun s => ?_⟩
  obtain ⟨t, ht⟩ : ∃ t, exec .runAll s = .next t := ⟨_, rfl⟩
  obtain ⟨hba, hbb, hbc, hout⟩ := pipelineBytes_execRunAll ht
  obtain ⟨hcompleted, hkept, henv⟩ := exec_frame ht
  refine ⟨t, ht, fun j hj => ?_, fun j hj => ?_, fun h hh j hj => ?_, fun i hi => ⟨?_, ?_⟩,
    hcompleted, hkept, henv, execRunAll_eq_four_commands ht⟩
  · rw [hba j hj, stageA, indexA_eq, Nat.mul_comm 8]
  · rw [hbb j hj, stageB, indexB_eq]
  · have hlt : dest h j + 1 < 8192 := dest_lt hh hj
    rw [← mergedWord_eq (t.byte .bb), ← dest_eq]
    exact ⟨(hbc _ (by omega)).trans (stageC_dest _ h hj), (hbc _ hlt).trans (stageC_dest_succ _ h hj)⟩
  · rw [hout _ (by omega), stageD_even]
  · rw [hout _ (by omega), stageD_odd]

/-- Settles O32: from OUT back to IN, one injective stage at a time. -/
theorem runAllIsInjective : Obligations.RunAllIsInjective := by
  intro s s' t t' ht ht' hout i hi
  have p := pipelineBytes_execRunAll ht
  have p' := pipelineBytes_execRunAll ht'
  have hbc : ∀ d < 8192, t.byte .bc d = t'.byte .bc d := fun d hd =>
    stageD_injective hd fun k hk => by rw [← p.out k hk, hout k hk, p'.out k hk]
  have hbb : ∀ j < 8192, t.byte .bb j = t'.byte .bb j := fun j hj =>
    stageC_injective hj fun d hd => by rw [← p.bc d hd, hbc d hd, p'.bc d hd]
  have hba : ∀ j < 8192, t.byte .ba j = t'.byte .ba j := fun j hj =>
    stageB_injective hj fun d hd => by rw [← p.bb d hd, hbb d hd, p'.bb d hd]
  exact stageA_injective hi fun j hj => by rw [← p.ba j hj, hba j hj, p'.ba j hj]

end Sys2Proof.Machine
end

section
/-! Shared laws for the statements about exceptions: what a step cannot answer and what it keeps, what the
port does to ERR and ERRCODE, and the two orders of a host turn and a completion. -/

namespace Sys2Proof.Machine

/-! ### What a step answers and keeps -/

/-- Reset and the engine always answer a next state (R155, R280, R320). -/
theorem exists_step_next_of_not_host {s : State} (ht : nextTurn s ≠ .host) :
    ∃ t, step s = .next t := by
  cases hturn : nextTurn s with
  | host => exact absurd hturn ht
  | reset => exact ⟨_, step_reset hturn⟩
  | engine =>
    cases he : s.eng with
    | idle => exact ⟨_, step_engine_idle hturn he⟩
    | running c =>
      obtain ⟨m, hm, -⟩ := exec_spec c (dropTurn s)
      exact ⟨_, (step_engine hturn he).trans hm⟩

theorem hostJumpIf_ne_refused (b : Bool) (l : Label) (s : State) (r : Refusal) :
    hostJumpIf b l s ≠ .refused r := by
  intro h
  cases b with
  | false => cases h
  | true =>
    simp only [hostJumpIf, hostJump, if_true] at h
    split at h <;> cases h

theorem hostStmt_ne_refused (st : Stmt) (s : State) (r : Refusal) : hostStmt st s ≠ .refused r := by
  cases st with
  | jz x mask l | jnz x mask l => exact hostJumpIf_ne_refused _ l s r
  | write _ _ | read _ _ | label _ | halt => intro h; cases h

theorem hostTurn_ne_refused (s : State) (r : Refusal) : hostTurn s ≠ .refused r := by
  rw [hostTurn]
  split
  · next st _ => exact hostStmt_ne_refused st s r
  · intro h; cases h

theorem resetBlock_script (s : State) : (resetBlock s).script = s.script := by
  cases he : s.eng with
  | idle => rw [resetBlock_idle he, resetFlags_script]
  | running c =>
    obtain ⟨m, hm, -⟩ := resetBlock_running he
    rw [hm, resetFlags_script]

/-- No turn rewrites the host's script. -/
theorem step_script {s t : State} (h : step s = .next t) : t.script = s.script := by
  rcases step_cases h with ⟨_, rfl⟩ | ⟨_, _, rfl⟩ | ⟨c, _, _, hex⟩ | ⟨_, hh⟩
  · exact resetBlock_script (dropTurn s)
  · rfl
  · obtain ⟨-, -, hscript, -⟩ := exec_frame hex
    exact hscript
  · obtain ⟨hscript, -⟩ := hostTurn_keeps hh
    exact hscript

/-! ### ERR and ERRCODE -/

/-- `t` has the error state of `s`. -/
def errorKept (s t : State) : Prop := t.err = s.err ∧ t.errCode = s.errCode

/-- What a write can do to the error state: keep it, acknowledge it at STATUS, or raise one of the three
error events with its code (R36, R281, R284). -/
theorem memWrite_error (a : Addr) (v : Byte) (s : State) :
    errorKept s (memWrite a v s) ∨
    (a = 0xC001#16 ∧ v.getLsbD 2 = true ∧ (memWrite a v s).err = false ∧
      (memWrite a v s).errCode = .noError) ∨
    (a = 0xC000#16 ∧ s.busy = false ∧ (∀ c, v ≠ encode c) ∧
      memWrite a v s = raiseError .illegalCmd s) ∨
    (a = 0xC000#16 ∧ s.busy = true ∧ memWrite a v s = raiseError .cmdWhileBusy s) ∨
    (a.toNat < 0xC000 ∧ s.busy = true ∧ memWrite a v s = raiseError .accessWhileBusy s) := by
  rcases memWrite_cases a v s with ⟨_, _, _, _, h⟩ | h | ⟨ha, hb, h⟩ | ⟨_, _, _, _, h⟩ |
    ⟨ha, hb, ⟨e, he⟩, h⟩ | ⟨ha, h⟩ | h
  · exact .inl (by rw [h]; exact ⟨rfl, rfl⟩)
  · exact .inr (.inr (.inr (.inr h)))
  · exact .inr (.inr (.inr (.inl ⟨target_cmd ha, hb, h⟩)))
  · exact .inl (by rw [h]; exact ⟨rfl, rfl⟩)
  · have hv : ∀ c, v ≠ encode c := fun c hc => by
      rw [hc, decode_encode] at he; cases he
    exact .inr (.inr (.inl ⟨target_cmd ha, hb, hv, h⟩))
  · rw [h, errorKept, writeStatus_eq]
    cases hv : v.getLsbD 2 with
    | true => exact .inr (.inl ⟨target_status ha, rfl, by simp, by simp⟩)
    | false => exact .inl (by simp)
  · exact .inl (by rw [h]; exact ⟨rfl, rfl⟩)

/-! ### A host turn and a completion, in both orders -/

theorem temp_congr {s t : State} (h : t.temps = s.temps) (x : Temp) : t.temp x = s.temp x := by
  simp only [State.temp, h]

theorem temp_setTemp_same (s : State) (x : Temp) (v : Byte) : (s.setTemp x v).temp x = v := by
  rw [temp_setTemp, if_pos rfl]

section
variable {s : State} (ht : nextTurn s = .host)
include ht

/-- A CMD write while busy is discarded (R150, R282). -/
theorem step_cmdWrite_busy {v : Byte} (hst : s.script[s.hostPc]? = some (.write 0xC000#16 v))
    (hb : s.busy = true) :
    step s = .next (hostNext (raiseError .cmdWhileBusy (dropTurn s))) := by
  rw [step_hostWrite ht hst, hostWrite, memWrite_cmd, present_busy (s := dropTurn s) hb]

section
variable {a : Addr} {x : Temp} {X : Buf} {i : Nat}
  (hst : s.script[s.hostPc]? = some (.read a x)) (ha : target a = .buffer X i)
include hst ha

theorem step_bufferRead_busy (hb : s.busy = true) :
    step s = .next (hostNext ((raiseError .accessWhileBusy (dropTurn s)).setTemp x 0x00#8)) := by
  rw [step_hostStmt_read ht hst, hostRead, memRead_buffer_busy (s := dropTurn s) ha hb]
  rfl

theorem step_bufferRead_idle (hb : s.busy = false) :
    step s = .next (hostNext ((dropTurn s).setTemp x (s.byte X i))) := by
  rw [step_hostStmt_read ht hst, hostRead, memRead_buffer_idle (s := dropTurn s) ha hb]
  rfl

end
end

/-- The turn list is not part of what a command does. -/
theorem exec_setTurns {c : Instr} {s u : State} (ts : List Turn) (h : exec c s = .next u) :
    exec c { s with turns := ts } = .next { u with turns := ts } := by
  obtain ⟨m, hm, -⟩ := exec_spec c s
  obtain ⟨m', hm', -⟩ := exec_spec c { s with turns := ts }
  obtain rfl : finish { s with mem := m } = u := by simpa [hm] using h
  obtain rfl : m' = m := exec_mem_congr (s := { s with turns := ts }) (s' := s) rfl hm' hm
  exact hm'

section
variable {s u : State} {c : Instr} (hrun : s.eng = .running c) (hu : exec c s = .next u)
include hrun hu

/-- The host moves first: the running command then completes from the flags and the temporaries the host
left, with the buffers it would have left without the host (R85, R287). -/
theorem run_host_engine {v : State} (hb : s.busy = true)
    (hv : step { s with turns := [.host, .engine] } = .next v) :
    ∃ t, Host.Core.run core 2 { s with turns := [.host, .engine] } = .next t ∧
      completedFrom v t ∧ t.temps = v.temps ∧ t.mem = u.mem := by
  have hturn : hostTurn { s with turns := [.engine] } = .next v := hv
  obtain ⟨-, hturns⟩ := hostTurn_keeps hturn
  obtain ⟨heng, -⟩ := 
    step_host_control_of_busy (s := { s with turns := [.host, .engine] }) rfl hb hv
  have hmem : v.mem = s.mem :=
    hostTurn_mem_of_busy (s := { s with turns := [.engine] }) hb hturn
  have hnext : nextTurn v = .engine := by rw [nextTurn, hturns]
  obtain ⟨m, ht, -⟩ := exec_spec c (dropTurn v)
  have hstep := (step_engine hnext (heng.trans hrun)).trans ht
  obtain ⟨hcompleted, -, -, -, htemps, -⟩ := exec_frame ht
  exact ⟨_, (run_succ 1 hv).trans (run_succ 0 hstep), hcompleted, htemps,
    exec_mem_congr (s := dropTurn v) hmem ht hu⟩

/-- The completion comes first: the host then moves in the state the command left (R287). -/
theorem run_engine_host {t : State} (ht : step { u with turns := [.host] } = .next t) :
    Host.Core.run core 2 { s with turns := [.engine, .host] } = .next t := by
  have hstep : step { s with turns := [.engine, .host] } = .next { u with turns := [.host] } :=
    (step_engine (s := { s with turns := [.engine, .host] }) rfl hrun).trans
      (exec_setTurns (s := s) [.host] hu)
  exact (run_succ 1 hstep).trans (run_succ 0 ht)

end

end Sys2Proof.Machine
end

section
/-! The exceptions family's statements: no step traps, what changes the error state, and the host's races
with a completion. -/

namespace Sys2Proof.Machine

/-- Settles O43: reset and the engine always answer, and a well-formed script's jumps find their labels. -/
theorem noStepTraps : Obligations.NoStepTraps := by
  refine ⟨fun s hwf => ?_, fun s r hr => ?_⟩
  · obtain ⟨t, ht⟩ : ∃ t, step s = .next t := by
      by_cases hturn : nextTurn s = .host
      · rw [step_host hturn]
        exact exists_hostTurn_next (s := dropTurn s) hwf
      · exact exists_step_next_of_not_host hturn
    exact ⟨t, ht, step_script ht⟩
  · by_cases hturn : nextTurn s = .host
    · exact hostTurn_ne_refused (dropTurn s) r ((step_host hturn).symm.trans hr)
    · obtain ⟨t, ht⟩ := exists_step_next_of_not_host hturn
      cases hr.symm.trans ht

/-- Settles O48: of the turns, reset clears the error state, the engine keeps it, and the host's port
transaction does what that transaction can do to it. -/
theorem errorStateChangesOnlyAsListed : Obligations.ErrorStateChangesOnlyAsListed := by
  intro s t hstep
  rcases step_cases hstep with ⟨ht, rfl⟩ | ⟨_, _, rfl⟩ | ⟨c, _, _, hex⟩ | ⟨ht, hh⟩
  · exact .inr (.inl ⟨ht, rfl, rfl⟩)
  · exact .inl ⟨rfl, rfl⟩
  · obtain ⟨⟨-, -, -, hkept⟩, -⟩ := exec_frame hex
    exact .inl hkept
  · rcases hostTurn_cases hh with ⟨a, v, hst, rfl⟩ | ⟨a, x, hst, rfl⟩ | ⟨k, rfl⟩
    · rcases memWrite_error a v (dropTurn s) with hkept | ⟨rfl, hv, herr, hcode⟩ |
        ⟨rfl, hb, hv, h⟩ | ⟨rfl, hb, h⟩ | ⟨hlt, hb, h⟩
      · exact .inl hkept
      · exact .inr (.inr ⟨ht, _, hst, .inl ⟨v, rfl, hv, herr, hcode⟩⟩)
      all_goals rw [hostWrite, h]
      · exact .inr (.inr ⟨ht, _, hst, .inr (.inl ⟨v, rfl, hb, hv, rfl, rfl⟩)⟩)
      · exact .inr (.inr ⟨ht, _, hst, .inr (.inr (.inl ⟨v, rfl, hb, rfl, rfl⟩))⟩)
      · exact .inr (.inr ⟨ht, _, hst, .inr (.inr (.inr ⟨a, hlt, hb, .inl ⟨v, rfl⟩, rfl, rfl⟩))⟩)
    · rcases memRead_state a (dropTurn s) with h | ⟨hb, hlt, h⟩ <;> rw [hostRead, h]
      · exact .inl ⟨rfl, rfl⟩
      · exact .inr (.inr ⟨ht, _, hst, .inr (.inr (.inr ⟨a, hlt, hb, .inr ⟨x, rfl⟩, rfl, rfl⟩))⟩)
    · exact .inl ⟨rfl, rfl⟩

/-- Settles O53: the write meets a busy block before the completion and an idle one after it. -/
theorem commandWriteRacesCompletion : Obligations.CommandWriteRacesCompletion := by
  intro s c c' hrun hb hst
  obtain ⟨m, hu, -⟩ := exec_spec c s
  set u := finish { s with mem := m }
  have hfirst := step_cmdWrite_busy (s := { s with turns := [.host, .engine] }) rfl hst hb
  obtain ⟨t, ht, ⟨heng, hbusy, hdone, herr, hcode⟩, -, hmem⟩ := run_host_engine hrun hu hb hfirst
  have hlast := step_acceptance (s := { u with turns := [.host] }) rfl hst rfl (decode_encode c')
  exact ⟨u, t, _, hu, ht, run_engine_host hrun hu hlast, heng, hbusy, hdone, herr, hcode,
    rfl, rfl, rfl, rfl, rfl, fun X i => ⟨byte_congr hmem X i, rfl⟩⟩

/-- Settles O54: the read meets a busy block before the completion and an idle one after it. -/
theorem bufferReadRacesCompletion : Obligations.BufferReadRacesCompletion := by
  intro s c a X i x hrun hb ha hst
  obtain ⟨m, hu, -⟩ := exec_spec c s
  set u := finish { s with mem := m }
  have hfirst := step_bufferRead_busy (s := { s with turns := [.host, .engine] }) rfl hst ha hb
  obtain ⟨t, ht, ⟨-, -, hdone, herr, hcode⟩, htemps, hmem⟩ := run_host_engine hrun hu hb hfirst
  have hlast := step_bufferRead_idle (s := { u with turns := [.host] }) rfl hst ha rfl
  exact ⟨u, t, _, hu, ht, run_engine_host hrun hu hlast,
    (temp_congr htemps x).trans (temp_setTemp_same _ x _), hdone, herr, hcode,
    temp_setTemp_same _ x _, rfl, rfl, rfl, fun Y j => ⟨byte_congr hmem Y j, rfl⟩⟩

end Sys2Proof.Machine
end

section
/-! Shared laws for the statements about reset and its hazards: what reset does in every state, and the
polling loop of R126 while a command runs and after it has completed. -/

namespace Sys2Proof.Machine

/-! ### Reset -/

/-- What reset can do in any state: change bytes and the draw count, and clear the flags; the host and
the turns are not reached (R320, log entry 7). -/
theorem resetBlock_spec (s : State) :
    ∃ m k, resetBlock s = resetFlags { s with mem := m, draws := k } := by
  cases he : s.eng with
  | idle => exact ⟨s.mem, s.draws, resetBlock_idle he⟩
  | running c =>
    obtain ⟨m, hm, -⟩ := resetBlock_running he
    exact ⟨m, s.draws + 1, hm⟩

theorem byte_of_cellsFill {s : State} {X : Buf} {f : Nat → Byte}
    (h : s.mem.cells X = cellsFill (Config.bufLen X) f) {i : Nat} (hi : i < Config.bufLen X) :
    s.byte X i = f i := by
  simp [State.byte, h, cellsGet_fill, hi]

/-- No command reads a buffer it writes, RUN_ALL's stages apart (R122). -/
theorem sourceOf_notMem_destsOf (c : Instr) : sourceOf c ∉ destsOf c := by
  cases c <;> decide

/-! ### Where the host stands in a polling loop -/

/-- The host's place in a WAITDONE loop (R126). -/
inductive PollPlace where
  /-- At the loop's label. -/
  | label
  /-- At the read of STATUS. -/
  | read
  /-- At the jump; `shown` is the DONE bit of the value in the loop's temporary. -/
  | jump (shown : Bool)
  /-- Behind the loop. -/
  | out

/-- The place after one host turn, DONE being `done`. -/
def PollPlace.next (done : Bool) : PollPlace → PollPlace
  | .label => .read
  | .read => .jump done
  | .jump false => .label
  | .jump true => .out
  | .out => .out

/-- How many host turns lead out of the loop while DONE = 1. -/
def PollPlace.turnsLeft : PollPlace → Nat
  | .jump false => 4
  | .label => 3
  | .read => 2
  | .jump true => 1
  | .out => 0

/-- The host of `s` stands at the place in the loop at `p` that reads into `x`. -/
def PollPlace.holds (p : Nat) (x : Temp) (s : State) : PollPlace → Prop
  | .label => s.hostPc = p
  | .read => s.hostPc = p + 1
  | .jump shown => s.hostPc = p + 2 ∧ (s.temp x &&& 0x02#8 == 0#8) = !shown
  | .out => s.hostPc = p + 3

theorem PollPlace.turnsLeft_next_lt {q : PollPlace} (hq : q ≠ .out) :
    (q.next true).turnsLeft < q.turnsLeft := by
  cases q with
  | out => exact absurd rfl hq
  | label | read => decide
  | jump shown => cases shown <;> decide

/-- While DONE = 0 the host is not led out: its next jump goes back to the label. -/
theorem PollPlace.two_le_turnsLeft_next {q : PollPlace} (hq : 2 ≤ q.turnsLeft) :
    2 ≤ (q.next false).turnsLeft := by
  cases q with
  | out => exact absurd hq (by decide)
  | label | read => decide
  | jump shown =>
    cases shown with
    | false => decide
    | true => exact absurd hq (by decide)

theorem PollPlace.ne_out {q : PollPlace} (hq : 2 ≤ q.turnsLeft) : q ≠ .out := by
  rintro rfl
  exact absurd hq (by decide)

theorem PollPlace.holds_congr {p : Nat} {x : Temp} {s t : State} {q : PollPlace}
    (hpc : t.hostPc = s.hostPc) (htemps : t.temps = s.temps) (h : q.holds p x s) : q.holds p x t := by
  cases q with
  | label | read | out => exact hpc.trans h
  | jump shown =>
    obtain ⟨hjump, hshown⟩ := h
    exact ⟨hpc.trans hjump, by rw [temp_congr htemps]; exact hshown⟩

/-- Bit 1 of the STATUS byte is DONE (R36, R73). -/
theorem readStatus_done (s : State) : (readStatus s &&& 0x02#8 == 0#8) = !s.done := by
  rw [readStatus]
  cases s.err <;> cases s.done <;> cases s.busy <;> rfl

/-! ### The polling loop's turns -/

/-- The host runs `script` and stands at place `q` of its loop, and no reset is among the turns. -/
structure Polls (script : List Stmt) (p : Nat) (x : Temp) (q : PollPlace) (s : State) : Prop where
  script_eq : s.script = script
  noReset : .reset ∉ s.turns
  place : q.holds p x s

/-- Some number of steps brings the host behind the loop, with DONE = 1 and ENG = Idle. -/
def LeavesLoop (p : Nat) (s : State) : Prop :=
  ∃ k t, Host.Core.run core k s = .next t ∧ t.hostPc = p + 3 ∧ t.done = true ∧ t.eng = .idle

theorem LeavesLoop.of_step {p : Nat} {s u : State} (h : step s = .next u) (hu : LeavesLoop p u) :
    LeavesLoop p s := by
  obtain ⟨k, t, hrun, hleft⟩ := hu
  exact ⟨k + 1, t, (run_succ k h).trans hrun, hleft⟩

theorem nextTurn_ne_reset {s : State} (h : .reset ∉ s.turns) : nextTurn s ≠ .reset := by
  rw [nextTurn]
  cases hts : s.turns with
  | nil => simp only [defaultTurn]; split <;> exact nofun
  | cons turn ts =>
    rintro rfl
    exact h (hts ▸ List.mem_cons_self)

section
variable {script : List Stmt} {p : Nat} {x : Temp} {l : Label} {q : PollPlace} {s : State}

/-- The host's turn moves it to the next place, and leaves the block alone. -/
theorem step_host_polls (hloop : WaitDoneLoop script p x l) (h : Polls script p x q s)
    (hq : q ≠ .out) (ht : nextTurn s = .host) :
    ∃ t, step s = .next t ∧ Polls script p x (q.next s.done) t ∧ t.eng = s.eng ∧
      t.done = s.done ∧ t.turns = s.turns.tail := by
  obtain ⟨rfl, hreset, hplace⟩ := h
  have hrest : .reset ∉ s.turns.tail := mt List.mem_of_mem_tail hreset
  cases q with
  | out => exact absurd rfl hq
  | label =>
    have hpc : s.hostPc = p := hplace
    have hst : s.script[s.hostPc]? = some (.label l) := by rw [hpc]; exact hloop.label
    exact ⟨_, step_hostStmt_label ht hst, ⟨rfl, hrest, congrArg (· + 1) hpc⟩, rfl, rfl, rfl⟩
  | read =>
    have hpc : s.hostPc = p + 1 := hplace
    have hst : s.script[s.hostPc]? = some (.read 0xC001#16 x) := by rw [hpc]; exact hloop.read
    refine ⟨_, step_hostStmt_read ht hst, ⟨rfl, hrest, congrArg (· + 1) hpc, ?_⟩, rfl, rfl, rfl⟩
    rw [hostRead_temp, if_pos rfl]
    exact readStatus_done (dropTurn s)
  | jump shown =>
    obtain ⟨hpc, hshown⟩ := hplace
    have hst : s.script[s.hostPc]? = some (.jz x 0x02#8 l) := by rw [hpc]; exact hloop.jump
    cases shown with
    | false =>
      exact ⟨_, (step_hostStmt ht hst).trans (hostJumpIf_true hshown hloop.place),
        ⟨rfl, hrest, rfl⟩, rfl, rfl, rfl⟩
    | true =>
      exact ⟨_, (step_hostStmt ht hst).trans (hostJumpIf_false l _ hshown),
        ⟨rfl, hrest, congrArg (· + 1) hpc⟩, rfl, rfl, rfl⟩

/-- The engine's turn completes the command and leaves the host where it stands (R155). -/
theorem step_engine_polls {c : Instr} (h : Polls script p x q s) (hrun : s.eng = .running c)
    (ht : nextTurn s = .engine) :
    ∃ t, step s = .next t ∧ Polls script p x q t ∧ t.eng = .idle ∧ t.done = true := by
  obtain ⟨hscript, hreset, hplace⟩ := h
  obtain ⟨m, hexec, -⟩ := exec_spec c (dropTurn s)
  exact ⟨_, (step_engine ht hrun).trans hexec,
    ⟨hscript, mt List.mem_of_mem_tail hreset, PollPlace.holds_congr rfl rfl hplace⟩,
    rfl, rfl⟩

/-- Once DONE = 1 the loop is left: a host turn brings its end nearer, an idle engine's turn uses up the
list. -/
theorem leavesLoop_of_done (hloop : WaitDoneLoop script p x l) (h : Polls script p x q s)
    (hidle : s.eng = .idle) (hdone : s.done = true) : LeavesLoop p s := by
  induction hn : q.turnsLeft + s.turns.length using Nat.strong_induction_on generalizing q s with
  | _ n ih =>
    by_cases hq : q = .out
    · subst hq
      exact ⟨0, s, rfl, h.place, hdone, hidle⟩
    · cases ht : nextTurn s with
      | reset => exact absurd ht (nextTurn_ne_reset h.noReset)
      | host =>
        obtain ⟨u, hstep, hu, heng, hd, hturns⟩ := step_host_polls hloop h hq ht
        rw [hdone] at hu hd
        have hlt := PollPlace.turnsLeft_next_lt hq
        refine .of_step hstep (ih _ ?_ hu (heng.trans hidle) hd rfl)
        rw [hturns, List.length_tail]
        omega
      | engine =>
        have hlisted : s.turns ≠ [] := fun hts => by
          simp [nextTurn, hts, defaultTurn, hidle] at ht
        have hlt := List.length_pos_iff.mpr hlisted
        have hu : Polls script p x q (dropTurn s) :=
          ⟨h.script_eq, mt List.mem_of_mem_tail h.noReset, h.place⟩
        refine .of_step (step_engine_idle ht hidle) (ih _ ?_ hu hidle hdone rfl)
        rw [dropTurn_turns, List.length_tail]
        omega

/-- Where the engine takes its turn the command completes, and DONE = 1 leads the host out. -/
theorem leavesLoop_of_completion {c : Instr} (hloop : WaitDoneLoop script p x l)
    (h : Polls script p x q s) (hrun : s.eng = .running c) (ht : nextTurn s = .engine) :
    LeavesLoop p s := by
  obtain ⟨u, hstep, hu, hidle, hdone⟩ := step_engine_polls h hrun ht
  exact .of_step hstep (leavesLoop_of_done hloop hu hidle hdone)

/-- While the command runs the host goes round, and the engine's turn comes at the latest when the list
is used up (R330, log entry 6). -/
theorem leavesLoop_of_running {c : Instr} (hloop : WaitDoneLoop script p x l)
    (h : Polls script p x q s) (hq : 2 ≤ q.turnsLeft) (hrun : s.eng = .running c)
    (hdone : s.done = false) : LeavesLoop p s := by
  induction hts : s.turns generalizing q s with
  | nil =>
    exact leavesLoop_of_completion hloop h hrun (by simp [nextTurn, hts, defaultTurn, hrun])
  | cons turn ts ih =>
    cases ht : nextTurn s with
    | reset => exact absurd ht (nextTurn_ne_reset h.noReset)
    | engine => exact leavesLoop_of_completion hloop h hrun ht
    | host =>
      obtain ⟨u, hstep, hu, heng, hd, hturns⟩ := step_host_polls hloop h (PollPlace.ne_out hq) ht
      rw [hdone] at hu hd
      rw [hts, List.tail_cons] at hturns
      exact .of_step hstep
        (ih hu (PollPlace.two_le_turnsLeft_next hq) (heng.trans hrun) hd hturns)

end

end Sys2Proof.Machine
end

section
/-! The reset and hazards family's statements: what reset does, and that a polling loop ends. -/

namespace Sys2Proof.Machine

/-- Settles O34: reset is a step in every state, and reaches the flags and the buffers alone. -/
theorem resetClearsTheBlock : Obligations.ResetClearsTheBlock := by
  intro s ht
  obtain ⟨m, k, hm⟩ := resetBlock_spec (dropTurn s)
  exact ⟨_, (step_reset ht).trans (congrArg _ hm), rfl, rfl, rfl, rfl, rfl, rfl, rfl, rfl⟩

/-- Settles O35: with nothing to interrupt, reset clears the flags only. -/
theorem idleResetKeepsBuffers : Obligations.IdleResetKeepsBuffers := by
  intro s ht hidle
  refine ⟨_, step_reset ht, byte_congr ?_⟩
  rw [resetBlock_idle (s := dropTurn s) hidle, resetFlags_mem, dropTurn_mem]

/-- Settles O36: the interruption fills each destination with its draws and leaves every other buffer's
cells. -/
theorem interruptedDestinationsAreDraws : Obligations.InterruptedDestinationsAreDraws := by
  intro s c ht hrun
  obtain ⟨m, hm, -, hkept, hdrawn⟩ := resetBlock_running (s := dropTurn s) hrun
  exact ⟨_, (step_reset ht).trans (congrArg _ hm), rfl, rfl, rfl,
    fun X hX i hi => byte_of_cellsFill (hdrawn X hX) hi,
    fun X hX i => byte_eq_of_cells_eq (hkept X hX) i, sourceOf_notMem_destsOf c⟩

/-- Settles O41: the host goes round until the command completes, and is then led out by DONE = 1. -/
theorem waitDoneEndsAfterAcceptance : Obligations.WaitDoneEndsAfterAcceptance := by
  intro s c p x l hrun _ hdone hreset hpc hlabel hread hjump hplace
  have hpolls : Polls s.script p x .label s := ⟨rfl, hreset, hpc⟩
  exact leavesLoop_of_running ⟨hlabel, hread, hjump, hplace⟩ hpolls (by decide) hrun hdone

end Sys2Proof.Machine
end
